-- ==== Sys2Proof/Word.lean ====
section
/-! DEFINITION. The machine's datum sizes: the 32-bit word and the 8-bit console byte. -/

namespace Sys2Proof

/-- A word, "the machine's only datum size" (00_scope.md R6, R10): unsigned, 32 bits, arithmetic modulo 2^32. -/
abbrev Word := BitVec 32

/-- A console or program-image byte (00_scope.md R4, the I/O datum). -/
abbrev Byte := BitVec 8

end Sys2Proof
end

