-- ==== Sys2Proof/Syntax.lean ====
section
/-! DEFINITION. The instruction set as syntax: one constructor per row of spec/opcode_table.json. -/

namespace Sys2Proof

/-- A register number, 0 to 7 (10_state.md R14). A 3-bit field can name nothing else. -/
abbrev Reg := Fin 8

/-- An instruction with the fields it uses and no others: two words are the same instruction when they agree in
the opcode and in these fields (30_encoding.md R79; log entry 8). The fields keep the document's letters A, B and C. -/
inductive Instr where
  /-- opcode 0, 41_alu.md R111 -/
  | condMove (a b c : Reg)
  /-- opcode 1, 42_array.md R131 -/
  | arrayIndex (a b c : Reg)
  /-- opcode 2, 42_array.md R132 -/
  | arrayUpdate (a b c : Reg)
  /-- opcode 3, 41_alu.md R112 -/
  | add (a b c : Reg)
  /-- opcode 4, 41_alu.md R113 -/
  | mul (a b c : Reg)
  /-- opcode 5, 41_alu.md R114 -/
  | div (a b c : Reg)
  /-- opcode 6, 41_alu.md R115 -/
  | nand (a b c : Reg)
  /-- opcode 7, 43_control_io.md R151 -/
  | halt
  /-- opcode 8, 42_array.md R133 -/
  | allocate (b c : Reg)
  /-- opcode 9, 42_array.md R134 -/
  | deallocate (c : Reg)
  /-- opcode 10, 43_control_io.md R152 -/
  | output (c : Reg)
  /-- opcode 11, 43_control_io.md R153 -/
  | input (c : Reg)
  /-- opcode 12, 43_control_io.md R154 -/
  | loadProgram (b c : Reg)
  /-- opcode 13, 41_alu.md R116. The immediate is the zero-extended word of 30_encoding.md R75. -/
  | loadImmediate (a : Reg) (imm : Word)
  /-- opcode 14, illegal (30_encoding.md R77) -/
  | illegal14
  /-- opcode 15, illegal (30_encoding.md R77) -/
  | illegal15
deriving DecidableEq, Repr

end Sys2Proof
end

