-- ==== Sys2Proof/WellFormed.lean ====
section
/-! DEFINITION. Which instructions have an encoding. The one check is the range of the immediate: a register
number is in range by its type. -/

namespace Sys2Proof

/-- The largest immediate, 33554431 = 2^25 - 1 (30_encoding.md R75). -/
def maxImmediate : Word := 0x01FFFFFF#32

/-- An instruction the encodings can express: "an immediate outside 0 to 33554431 is an assembly error, not an
encoding" (30_encoding.md R82). Every other instruction has an encoding for all of its operands. -/
def Instr.wellFormed : Instr → Bool
  | .condMove _ _ _ => true
  | .arrayIndex _ _ _ => true
  | .arrayUpdate _ _ _ => true
  | .add _ _ _ => true
  | .mul _ _ _ => true
  | .div _ _ _ => true
  | .nand _ _ _ => true
  | .halt => true
  | .allocate _ _ => true
  | .deallocate _ => true
  | .output _ => true
  | .input _ => true
  | .loadProgram _ _ => true
  | .loadImmediate _ imm => decide (imm.toNat ≤ maxImmediate.toNat)
  | .illegal14 => true
  | .illegal15 => true

end Sys2Proof
end

