-- ==== Sys2Proof/Decode.lean ====
section
/-! DEFINITION. The instruction decoder (30_encoding.md R71 to R79), total on every word, and the encoder beside
it (R80). Decoding has the document's two stages: the fields of a word, then the instruction they select. -/

namespace Sys2Proof

/-- The instruction record of 30_encoding.md R74. -/
structure Fields where
  op : BitVec 4
  a : Reg
  b : Reg
  c : Reg
  imm : Word
deriving DecidableEq, Repr

/-- The 3-bit register field whose least significant bit is bit `lo`. -/
def regField (w : Word) (lo : Nat) : Reg := ⟨(w.extractLsb' lo 3).toNat, (w.extractLsb' lo 3).isLt⟩

/-- The opcode field w[31:28] (30_encoding.md R73). -/
def opcodeField (w : Word) : BitVec 4 := w.extractLsb' 28 4

/-- The immediate zext_32(w[24:0]) (30_encoding.md R75). -/
def immField (w : Word) : Word := (w.extractLsb' 0 25).setWidth 32

/-- `decode(w)` of 30_encoding.md R74. It never fails. -/
def decodeFields (w : Word) : Fields :=
  if opcodeField w = 13#4 then
    { op := 13#4, a := regField w 25, b := 0, c := 0, imm := immField w }
  else
    { op := opcodeField w, a := regField w 6, b := regField w 3, c := regField w 0, imm := 0#32 }

/-- The opcode map of 30_encoding.md R76, and the illegal opcodes 14 and 15 of R77. The last arm is opcode 15, the
one value of a 4-bit field the others leave. -/
def Fields.toInstr (f : Fields) : Instr :=
  match f.op.toNat with
  | 0 => .condMove f.a f.b f.c
  | 1 => .arrayIndex f.a f.b f.c
  | 2 => .arrayUpdate f.a f.b f.c
  | 3 => .add f.a f.b f.c
  | 4 => .mul f.a f.b f.c
  | 5 => .div f.a f.b f.c
  | 6 => .nand f.a f.b f.c
  | 7 => .halt
  | 8 => .allocate f.b f.c
  | 9 => .deallocate f.c
  | 10 => .output f.c
  | 11 => .input f.c
  | 12 => .loadProgram f.b f.c
  | 13 => .loadImmediate f.a f.imm
  | 14 => .illegal14
  | _ => .illegal15

/-- The decoder: a word to its instruction. Total; opcodes 14 and 15 decode too, and fail when executed
(90_conflicts.md C6). -/
def decode (w : Word) : Instr := (decodeFields w).toInstr

/-- The opcode number of an instruction (30_encoding.md R76). -/
def Instr.opcode : Instr → BitVec 4
  | .condMove _ _ _ => 0#4
  | .arrayIndex _ _ _ => 1#4
  | .arrayUpdate _ _ _ => 2#4
  | .add _ _ _ => 3#4
  | .mul _ _ _ => 4#4
  | .div _ _ _ => 5#4
  | .nand _ _ _ => 6#4
  | .halt => 7#4
  | .allocate _ _ => 8#4
  | .deallocate _ => 9#4
  | .output _ => 10#4
  | .input _ => 11#4
  | .loadProgram _ _ => 12#4
  | .loadImmediate _ _ => 13#4
  | .illegal14 => 14#4
  | .illegal15 => 15#4

/-- A register number as a word, for the encoder. -/
def regWord (r : Reg) : Word := BitVec.ofNat 32 r.val

/-- `enc_S` of 30_encoding.md R80. -/
def encS (op : BitVec 4) (a b c : Reg) : Word :=
  (op.setWidth 32 <<< 28) ||| (regWord a <<< 6) ||| (regWord b <<< 3) ||| regWord c

/-- `enc_I` of 30_encoding.md R80. -/
def encI (a : Reg) (imm : Word) : Word := (13#32 <<< 28) ||| (regWord a <<< 25) ||| imm

/-- The canonical encoding: every ignored bit is 0 (30_encoding.md R79, R82). -/
def encode : Instr → Word
  | .condMove a b c => encS 0#4 a b c
  | .arrayIndex a b c => encS 1#4 a b c
  | .arrayUpdate a b c => encS 2#4 a b c
  | .add a b c => encS 3#4 a b c
  | .mul a b c => encS 4#4 a b c
  | .div a b c => encS 5#4 a b c
  | .nand a b c => encS 6#4 a b c
  | .halt => encS 7#4 0 0 0
  | .allocate b c => encS 8#4 0 b c
  | .deallocate c => encS 9#4 0 0 c
  | .output c => encS 10#4 0 0 c
  | .input c => encS 11#4 0 0 c
  | .loadProgram b c => encS 12#4 0 b c
  | .loadImmediate a imm => encI a imm
  | .illegal14 => encS 14#4 0 0 0
  | .illegal15 => encS 15#4 0 0 0

/-- The bits an instruction with this opcode uses; every other bit is ignored (30_encoding.md R78).
The last arm is opcode 15. -/
def usedBits (op : BitVec 4) : Word :=
  match op.toNat with
  | 0 => 0xF00001FF#32
  | 1 => 0xF00001FF#32
  | 2 => 0xF00001FF#32
  | 3 => 0xF00001FF#32
  | 4 => 0xF00001FF#32
  | 5 => 0xF00001FF#32
  | 6 => 0xF00001FF#32
  | 7 => 0xF0000000#32
  | 8 => 0xF000003F#32
  | 9 => 0xF0000007#32
  | 10 => 0xF0000007#32
  | 11 => 0xF0000007#32
  | 12 => 0xF000003F#32
  | 13 => 0xFFFFFFFF#32
  | 14 => 0xF0000000#32
  | _ => 0xF0000000#32

/-- The one word of an instruction whose low `nbits` bits are those of `w`, the bits above them 0, as
spec/opcode_table.json numbers them. -/
def tableWord (nbits w : Nat) : Word := BitVec.ofNat 32 (w % 2 ^ nbits)

/-- What the decoder reads from an instruction of the opcode table. Every instruction is exactly one 32-bit word
(30_encoding.md R73), so there is no instruction of more bits. -/
def decodeTableWord (nbits w : Nat) : Option Instr :=
  if nbits ≤ 32 then some (decode (tableWord nbits w)) else none

end Sys2Proof
end

