-- ==== Sys2Proof/Machine/Assoc.lean ====
section
/-! DEFINITION. Finite partial maps from natural numbers, as lists of key and value pairs in one canonical form:
keys strictly rising. Both ARRAYS and the words of one array are held so (log entry 6). -/

namespace Sys2Proof.Machine

/-- The canonical form: keys strictly rising. -/
abbrev Assoc.Sorted {α : Type} (m : List (Nat × α)) : Prop := m.Pairwise (fun p q => p.1 < q.1)

/-- The value bound to a key. -/
def Assoc.find {α : Type} (k : Nat) : List (Nat × α) → Option α
  | [] => none
  | e :: m => if e.1 = k then some e.2 else Assoc.find k m

/-- Bind a key, replacing its old value if it has one. -/
def Assoc.insert {α : Type} (k : Nat) (v : α) : List (Nat × α) → List (Nat × α)
  | [] => [(k, v)]
  | e :: m =>
    if k < e.1 then (k, v) :: e :: m
    else if e.1 = k then (k, v) :: m
    else e :: Assoc.insert k v m

/-- Remove a key. -/
def Assoc.erase {α : Type} (k : Nat) : List (Nat × α) → List (Nat × α)
  | [] => []
  | e :: m => if e.1 = k then Assoc.erase k m else e :: Assoc.erase k m

end Sys2Proof.Machine
end

