-- ==== Sys2Proof/Config.lean ====
section
/-! DEFINITION. What the spec leaves open: the host's input answers (10_state.md R30) and the store's capacity
(00_scope.md R4). Both are free: the constants have no body, so no proof can know a value of theirs. -/

namespace Sys2Proof

/-- An answer of the input channel to `InRead()` (10_state.md R30). -/
inductive InputAnswer where
  /-- one byte of input -/
  | byte (b : Byte)
  /-- end-of-input, a defined value and not a failure (60_exceptions.md R173) -/
  | eof
deriving DecidableEq, Repr

/-- DESIGN CHOICE (log entry 2), safe. The answers the host gives during the `n`-th wait of the input channel,
oldest first; the empty list means that the host has not answered yet. Free: "each answer is a free draw of the
host" (10_state.md R30), and the host may never answer (40_execution.md R103). -/
opaque Config.hostAnswers (n : Nat) : List InputAnswer

/-- DESIGN CHOICE (log entry 4), safe. The parameter MAX_TOTAL_WORDS of the hardware, `none` for ∞
(00_scope.md R4, 92_eei_decisions.md D7 "OPEN"). -/
opaque Config.maxTotalWords : Option Nat

end Sys2Proof
end

