-- ==== Sys2Proof/Machine/State.lean ====
section
/-! DEFINITION. The machine state as plain data: the tuple of 10_state.md R13, and three fields of the model's own
(the input answers known so far, the draw counter, the capacity parameter). -/

namespace Sys2Proof.Machine

open Sys2Proof

/-- The run state of the control FSM (10_state.md R20). -/
inductive RunState where
  | running
  /-- terminal, success -/
  | halted
  /-- terminal, error -/
  | failed
deriving DecidableEq, Repr

/-- The failure kinds of 60_exceptions.md R171, code 0 first. -/
inductive FailKind where
  /-- code 0: no failure -/
  | noFailure
  /-- code 1 -/
  | illegalOpcode
  /-- code 2 -/
  | divisionByZero
  /-- code 3 -/
  | outputRangeError
  /-- code 4 -/
  | invalidArrayAccess
  /-- code 5 -/
  | invalidDeallocation
  /-- code 6 -/
  | programLoadError
  /-- code 7 -/
  | resourceExhausted
deriving DecidableEq, Repr

/-- An array: a finite sequence of `len` words (10_state.md R23). `cells` lists the nonzero words by their
offsets; an offset below `len` that is not listed holds 0, since an array is "zero-initialized on creation"
(00_scope.md R10; log entry 6). -/
structure Arr where
  len : Nat
  cells : List (Nat × Word)
deriving DecidableEq, Repr

/-- ARRAYS, the finite partial map from handles to arrays (10_state.md R23), sorted by handle. A handle that is
not listed is not active. -/
abbrev Memory := List (Nat × Arr)

/-- The machine state (10_state.md R13). -/
structure State where
  /-- the register file, r0 to r7 (R14) -/
  x : Vector Word 8
  /-- the program counter, a word offset into slot 0 (R17) -/
  pc : Word
  /-- STATE (R20) -/
  status : RunState
  /-- WAIT_IN: an INPUT waits for the input channel (R20, R30) -/
  waitIn : Bool
  /-- FAIL_KIND (R21) -/
  failKind : FailKind
  /-- FAIL_PC (R21) -/
  failPc : Word
  /-- ARRAYS (R23) -/
  arrays : Memory
  /-- FREE, the stack of freed handles, most recently freed first (R24) -/
  free : List Word
  /-- NEXT, the mint counter (R25) -/
  nextHandle : Nat
  /-- OUT, the output trace, oldest first (R31) -/
  out : List Byte
  /-- THE MODEL'S OWN (log entry 2): answers the host has given and no INPUT has consumed, oldest first; free -/
  inAnswers : List InputAnswer
  /-- THE MODEL'S OWN (log entry 2): how often the model has drawn from `Config.hostAnswers` -/
  inDraws : Nat
  /-- THE MODEL'S OWN (log entry 4): the hardware's parameter MAX_TOTAL_WORDS, `none` for ∞; no step writes it -/
  maxTotalWords : Option Nat
deriving DecidableEq, Repr

/-- The machine has no model fault. Every failure of the spec is fatal and enters FAILED with a report
(60_exceptions.md R174), which is a next state, and every other behaviour is given. So this type has no
constructor: nobody raises a fault (log entry 7, safe). -/
inductive Fault where
deriving DecidableEq, Repr

/-- Why the model gives an instruction no meaning. -/
inductive Refusal where
  /-- Raised by an arm of `exec` for an instruction not modelled yet, and by nothing else; no arm does so now.
  Safe: the model stops where the hardware goes on. -/
  | notModelled (mnemonic : String)
deriving DecidableEq, Repr

/-- The machine after a reset with the empty program image, which the loader accepts: slot 0 exists with
length 0 (70_reset_and_hazards.md R197, R201; log entry 5). The last three fields are the model's own
(DESIGN CHOICE, log entries 2 and 4). A reset with any image is `State.hostReset`. -/
def State.reset : State where
  x := Vector.replicate 8 0#32
  pc := 0#32
  status := .running
  waitIn := false
  failKind := .noFailure
  failPc := 0#32
  arrays := [(0, { len := 0, cells := [] })]
  free := []
  nextHandle := 1
  out := []
  inAnswers := []
  inDraws := 0
  maxTotalWords := Config.maxTotalWords

end Sys2Proof.Machine
end

