-- ==== Sys2Proof/Machine/Ops.lean ====
section
/-! DEFINITION. The named operations over registers, pc, the array store, the console and the run status: the
primitives of 00_scope.md R7, each written once. A check that fails answers `.error` with the failure kind and
changes nothing; `State.conclude` turns that into failure entry (60_exceptions.md R174). -/

namespace Sys2Proof.Machine

open Sys2Proof

/-! Registers and pc -/

/-- `x[i]` (10_state.md R14). -/
def State.reg (s : State) (r : Reg) : Word := s.x[r]

/-- `x[i] <- v`. No register is hardwired (10_state.md R14). -/
def State.setReg (s : State) (r : Reg) (v : Word) : State := { s with x := s.x.set r.val v }

/-- The pc update of every completed instruction but HALT and LOAD_PROGRAM: `pc <- pc + 1` modulo 2^32
(40_execution.md R95). -/
def State.advance (s : State) : State := { s with pc := s.pc + 1#32 }

/-- `pc <- t` (43_control_io.md R154). -/
def State.jump (s : State) (t : Word) : State := { s with pc := t }

/-! Arrays -/

/-- An array of `n` zero words (20_memory.md R48). -/
def Arr.zeros (n : Nat) : Arr := { len := n, cells := [] }

/-- The word at an offset below the length. -/
def Arr.read (a : Arr) (off : Nat) : Word := (Assoc.find off a.cells).getD 0#32

/-- The array with the word at an offset below the length replaced; the length stays (20_memory.md R47). -/
def Arr.write (a : Arr) (off : Nat) (v : Word) : Arr :=
  { a with cells := if v = 0#32 then Assoc.erase off a.cells else Assoc.insert off v a.cells }

/-- The nonzero words of a sequence with their offsets, the first at offset `k`. -/
def Arr.cellsFrom (k : Nat) : List Word → List (Nat × Word)
  | [] => []
  | w :: ws => if w = 0#32 then Arr.cellsFrom (k + 1) ws else (k, w) :: Arr.cellsFrom (k + 1) ws

/-- The array that holds a sequence of words. -/
def Arr.ofWords (ws : List Word) : Arr := { len := ws.length, cells := Arr.cellsFrom 0 ws }

/-- The words of an array in order, for the host's inspection (10_state.md R33). -/
def Arr.toWords (a : Arr) : List Word := (List.range a.len).map a.read

/-- TOTAL, the sum of the lengths of all active arrays (10_state.md R27). -/
def Memory.total : Memory → Nat
  | [] => 0
  | e :: m => e.2.len + Memory.total m

/-! The predicates of 20_memory.md R44 -/

/-- The array bound to a handle, if the handle is active. -/
def State.array (s : State) (h : Word) : Option Arr := Assoc.find h.toNat s.arrays

/-- `active(h)` (20_memory.md R44). -/
def State.active (s : State) (h : Word) : Bool := (s.array h).isSome

/-- `len(h)` of an active handle (20_memory.md R44). -/
def State.len (s : State) (h : Word) : Nat :=
  match s.array h with
  | some a => a.len
  | none => 0

/-- `valid(h, off)`: the handle check and the unsigned bounds check (20_memory.md R44, R46). -/
def State.valid (s : State) (h off : Word) : Bool := s.active h && decide (off.toNat < s.len h)

/-- `ARRAYS[h][off]` at a valid address. -/
def State.wordAt (s : State) (h off : Word) : Word :=
  match s.array h with
  | some a => a.read off.toNat
  | none => 0#32

/-! The store's operations -/

/-- `StoreRead(h, off)` (20_memory.md R45). -/
def State.storeRead (s : State) (h off : Word) : Except FailKind Word :=
  if s.valid h off then .ok (s.wordAt h off) else .error .invalidArrayAccess

/-- `ARRAYS[h][off] <- v` at a valid address: no other word changes (20_memory.md R43, R47). -/
def State.putWord (s : State) (h off v : Word) : State :=
  match s.array h with
  | some a => { s with arrays := Assoc.insert h.toNat (a.write off.toNat v) s.arrays }
  | none => s

/-- `StoreWrite(h, off, v)` (20_memory.md R47). -/
def State.storeWrite (s : State) (h off v : Word) : Except FailKind State :=
  if s.valid h off then .ok (s.putWord h off v) else .error .invalidArrayAccess

/-- Whether the store has room for this many words in all: `words ≤ MAX_TOTAL_WORDS` (20_memory.md R49). -/
def State.fits (s : State) (words : Nat) : Bool :=
  match s.maxTotalWords with
  | some most => decide (words ≤ most)
  | none => true

/-- Bind an active array of `n` zero words to a handle (20_memory.md R48). -/
def State.bindZeros (s : State) (h : Word) (n : Word) : State :=
  { s with arrays := Assoc.insert h.toNat (Arr.zeros n.toNat) s.arrays }

/-- `Alloc(n)` (20_memory.md R48, R49): the new handle and the state with its array. The most recently freed
handle is reused; if none is free, NEXT is minted. Every handle is minted once NEXT reaches 2^32
(log entry 9 on the comparison). -/
def State.alloc (s : State) (n : Word) : Except FailKind (Word × State) :=
  if s.free = [] ∧ 2 ^ 32 ≤ s.nextHandle then .error .resourceExhausted
  else if s.fits (s.arrays.total + n.toNat) = false then .error .resourceExhausted
  else
    match s.free with
    | h :: rest => .ok (h, ({ s with free := rest }).bindZeros h n)
    | [] =>
      .ok (BitVec.ofNat 32 s.nextHandle,
        ({ s with nextHandle := s.nextHandle + 1 }).bindZeros (BitVec.ofNat 32 s.nextHandle) n)

/-- `Free(h)` (20_memory.md R50): the binding goes, and the handle becomes the top of FREE. -/
def State.dealloc (s : State) (h : Word) : Except FailKind State :=
  if h = 0#32 ∨ s.active h = false then .error .invalidDeallocation
  else .ok { s with arrays := Assoc.erase h.toNat s.arrays, free := h :: s.free }

/-- `Dup0(h)` (20_memory.md R52, R53): no check and no copy for handle 0; else the handle check, then the capacity
check, then a copy of the array into slot 0. Arrays are values here, so the copy shares nothing (R43). -/
def State.dup0 (s : State) (h : Word) : Except FailKind State :=
  if h = 0#32 then .ok s
  else
    match s.array h with
    | none => .error .invalidArrayAccess
    | some a =>
      if s.fits (s.arrays.total - s.len 0#32 + a.len) then
        .ok { s with arrays := Assoc.insert 0 a s.arrays }
      else .error .resourceExhausted

/-- The fetch: slot 0 at `pc`, through the store's checked read (40_execution.md R92; log entry 10). -/
def State.fetch (s : State) : Except FailKind Word := s.storeRead 0#32 s.pc

/-! Console -/

/-- `OutWrite(b)` (10_state.md R31). -/
def State.outWrite (s : State) (b : Byte) : State := { s with out := s.out ++ [b] }

/-- `InRead()` once the host has answered: the next answer, and the state with it consumed and the wait over
(10_state.md R30). `none` while no answer is there. -/
def State.inRead (s : State) : Option (InputAnswer × State) :=
  match s.inAnswers with
  | a :: rest => some (a, { s with inAnswers := rest, waitIn := false })
  | [] => none

/-- One step of waiting for the input channel: WAIT_IN is 1 and no other state of the spec changes
(10_state.md R30); the host's answers of this wait are drawn (log entries 2 and 3). -/
def State.awaitInput (s : State) : State :=
  { s with waitIn := true, inAnswers := Config.hostAnswers s.inDraws, inDraws := s.inDraws + 1 }

/-! Ends of an instruction -/

/-- Failure entry, `raise K()` (60_exceptions.md R174): the report is written and nothing else changes. -/
def State.raise (s : State) (k : FailKind) : State :=
  { s with status := .failed, failKind := k, failPc := s.pc }

/-- `halt` (43_control_io.md R151). -/
def State.halt (s : State) : State := { s with status := .halted }

/-- How an instruction ends: with the state its effect leaves, or, where a check failed, with failure entry from
the state before it (60_exceptions.md R175). -/
def State.conclude (s : State) : Except FailKind State → State
  | .ok t => t
  | .error k => s.raise k

end Sys2Proof.Machine
end

