-- ==== Sys2Proof/Machine/Flags.lean ====
section
/-! DEFINITION. The machine has no flags and no condition codes (10_state.md R28). What stands here instead: the
comparisons the datapath makes (90_conflicts.md C5) and the STATUS word the host reads (10_state.md R20). -/

namespace Sys2Proof.Machine

open Sys2Proof

/-- COND_MOVE's test: any nonzero word is true (41_alu.md R111). -/
def condHolds (c : Word) : Bool := decide (c ≠ 0#32)

/-- DIV's zero test (41_alu.md R114). -/
def divisorIsZero (c : Word) : Bool := decide (c = 0#32)

/-- OUTPUT's range test, `v > 255` unsigned (43_control_io.md R152). -/
def exceedsByte (v : Word) : Bool := decide (255 < v.toNat)

/-- The STATE field's code (10_state.md R20). -/
def RunState.code : RunState → BitVec 2
  | .running => 0#2
  | .halted => 1#2
  | .failed => 2#2

/-- The code of a failure kind (60_exceptions.md R171). -/
def FailKind.code : FailKind → BitVec 4
  | .noFailure => 0#4
  | .illegalOpcode => 1#4
  | .divisionByZero => 2#4
  | .outputRangeError => 3#4
  | .invalidArrayAccess => 4#4
  | .invalidDeallocation => 5#4
  | .programLoadError => 6#4
  | .resourceExhausted => 7#4

/-- The STATUS word (10_state.md R20): reserved bits 31:8, FAIL_KIND 7:4, reserved bit 3, WAIT_IN 2, STATE 1:0. -/
def State.statusWord (s : State) : Word :=
  0#24 ++ s.failKind.code ++ 0#1 ++ BitVec.ofBool s.waitIn ++ s.status.code

end Sys2Proof.Machine
end

