-- ==== Sys2Proof/Machine/Operands.lean ====
section
/-! DEFINITION. Operand forms and the values instructions compute from them. Every operand is a register named by a
3-bit field (`State.reg`), but for the one immediate, which the decoder has zero-extended (30_encoding.md R75). Arithmetic is on unsigned words
(00_scope.md R6). -/

namespace Sys2Proof.Machine

open Sys2Proof

/-- ADD's value, `(b + c) mod 2^32` (41_alu.md R112). -/
def wrapAdd (b c : Word) : Word := b + c

/-- MUL's value, the low 32 bits of the product (41_alu.md R113). -/
def wrapMul (b c : Word) : Word := b * c

/-- DIV's value for a nonzero divisor, the unsigned quotient rounded toward zero (41_alu.md R114). -/
def quotient (b c : Word) : Word := b / c

/-- NAND's value (41_alu.md R115). -/
def notAnd (b c : Word) : Word := ~~~(b &&& c)

/-- `v[7:0]`, the byte OUTPUT emits (43_control_io.md R152). -/
def lowByte (v : Word) : Byte := v.setWidth 8

/-- What INPUT writes for an answer: the byte zero-extended, or all ones for end-of-input (43_control_io.md R153). -/
def inputWord : InputAnswer → Word
  | .byte b => b.setWidth 32
  | .eof => 0xFFFFFFFF#32

end Sys2Proof.Machine
end

