-- ==== Sys2Proof/Machine/Alu.lean ====
section
/-! DEFINITION. The ALU family: COND_MOVE, ADD, MUL, DIV, NAND and LOAD_IMMEDIATE (41_alu.md). -/

namespace Sys2Proof.Machine

open Sys2Proof

/-- COND_MOVE (41_alu.md R111). -/
def execCondMove (a b c : Reg) (s : State) : Host.Outcome State Fault Refusal :=
  .next (if condHolds (s.reg c) then (s.setReg a (s.reg b)).advance else s.advance)

/-- ADD (41_alu.md R112). -/
def execAdd (a b c : Reg) (s : State) : Host.Outcome State Fault Refusal :=
  .next (s.setReg a (wrapAdd (s.reg b) (s.reg c))).advance

/-- MUL (41_alu.md R113). -/
def execMul (a b c : Reg) (s : State) : Host.Outcome State Fault Refusal :=
  .next (s.setReg a (wrapMul (s.reg b) (s.reg c))).advance

/-- DIV (41_alu.md R114): a zero divisor raises DivisionByZero before any write. -/
def execDiv (a b c : Reg) (s : State) : Host.Outcome State Fault Refusal :=
  .next (s.conclude
    (if divisorIsZero (s.reg c) then .error .divisionByZero
     else .ok (s.setReg a (quotient (s.reg b) (s.reg c))).advance))

/-- NAND (41_alu.md R115). -/
def execNand (a b c : Reg) (s : State) : Host.Outcome State Fault Refusal :=
  .next (s.setReg a (notAnd (s.reg b) (s.reg c))).advance

/-- LOAD_IMMEDIATE (41_alu.md R116). -/
def execLoadImmediate (a : Reg) (imm : Word) (s : State) : Host.Outcome State Fault Refusal :=
  .next (s.setReg a imm).advance

end Sys2Proof.Machine
end

