-- ==== Sys2Proof/Machine/Control.lean ====
section
/-! DEFINITION. The control and I/O family: HALT, OUTPUT, INPUT and LOAD_PROGRAM (43_control_io.md), and the two
illegal opcodes (30_encoding.md R77). -/

namespace Sys2Proof.Machine

open Sys2Proof

/-- HALT (43_control_io.md R151): pc keeps the HALT's offset. -/
def execHalt (s : State) : Host.Outcome State Fault Refusal := .next s.halt

/-- OUTPUT (43_control_io.md R152): a value above 255 raises OutputRangeError and writes no byte. -/
def execOutput (c : Reg) (s : State) : Host.Outcome State Fault Refusal :=
  .next (s.conclude
    (if exceedsByte (s.reg c) then .error .outputRangeError
     else .ok (s.outWrite (lowByte (s.reg c))).advance))

/-- INPUT (43_control_io.md R153). While the host has not answered, the machine waits and pc stays, so that the
next step is this INPUT again (log entry 3). -/
def execInput (c : Reg) (s : State) : Host.Outcome State Fault Refusal :=
  .next (match s.inRead with
    | some (ans, t) => (t.setReg c (inputWord ans)).advance
    | none => s.awaitInput)

/-- LOAD_PROGRAM (43_control_io.md R154): both operands are read before slot 0 is replaced. -/
def execLoadProgram (b c : Reg) (s : State) : Host.Outcome State Fault Refusal :=
  .next (s.conclude ((s.dup0 (s.reg b)).map fun t => t.jump (s.reg c)))

/-- Opcode 14 raises IllegalOpcode before any effect (30_encoding.md R77, 40_execution.md R93). -/
def execIllegal14 (s : State) : Host.Outcome State Fault Refusal := .next (s.raise .illegalOpcode)

/-- Opcode 15 raises IllegalOpcode before any effect (30_encoding.md R77, 40_execution.md R93). -/
def execIllegal15 (s : State) : Host.Outcome State Fault Refusal := .next (s.raise .illegalOpcode)

end Sys2Proof.Machine
end

