-- ==== Sys2Proof/Machine/Store.lean ====
section
/-! DEFINITION. The array family: ARRAY_INDEX, ARRAY_UPDATE, ALLOCATE and DEALLOCATE (42_array.md). -/

namespace Sys2Proof.Machine

open Sys2Proof

/-- ARRAY_INDEX (42_array.md R131). -/
def execArrayIndex (a b c : Reg) (s : State) : Host.Outcome State Fault Refusal :=
  .next (s.conclude ((s.storeRead (s.reg b) (s.reg c)).map fun v => (s.setReg a v).advance))

/-- ARRAY_UPDATE (42_array.md R132): A is the handle, B the offset, C the value. -/
def execArrayUpdate (a b c : Reg) (s : State) : Host.Outcome State Fault Refusal :=
  .next (s.conclude ((s.storeWrite (s.reg a) (s.reg b) (s.reg c)).map State.advance))

/-- ALLOCATE (42_array.md R133). -/
def execAllocate (b c : Reg) (s : State) : Host.Outcome State Fault Refusal :=
  .next (s.conclude ((s.alloc (s.reg c)).map fun r => (r.2.setReg b r.1).advance))

/-- DEALLOCATE (42_array.md R134). -/
def execDeallocate (c : Reg) (s : State) : Host.Outcome State Fault Refusal :=
  .next (s.conclude ((s.dealloc (s.reg c)).map State.advance))

end Sys2Proof.Machine
end

