-- ==== Sys2Proof/Machine/Dispatch.lean ====
section
/-! DEFINITION. The dispatch of 40_execution.md R94: one arm per constructor of Instr. -/

namespace Sys2Proof.Machine

open Sys2Proof

/-- Execute one instruction (40_execution.md R94). -/
def exec (i : Instr) (s : State) : Host.Outcome State Fault Refusal :=
  match i with
  | .condMove a b c => Sys2Proof.Machine.execCondMove a b c s
  | .arrayIndex a b c => Sys2Proof.Machine.execArrayIndex a b c s
  | .arrayUpdate a b c => Sys2Proof.Machine.execArrayUpdate a b c s
  | .add a b c => Sys2Proof.Machine.execAdd a b c s
  | .mul a b c => Sys2Proof.Machine.execMul a b c s
  | .div a b c => Sys2Proof.Machine.execDiv a b c s
  | .nand a b c => Sys2Proof.Machine.execNand a b c s
  | .halt => Sys2Proof.Machine.execHalt s
  | .allocate b c => Sys2Proof.Machine.execAllocate b c s
  | .deallocate c => Sys2Proof.Machine.execDeallocate c s
  | .output c => Sys2Proof.Machine.execOutput c s
  | .input c => Sys2Proof.Machine.execInput c s
  | .loadProgram b c => Sys2Proof.Machine.execLoadProgram b c s
  | .loadImmediate a imm => Sys2Proof.Machine.execLoadImmediate a imm s
  | .illegal14 => Sys2Proof.Machine.execIllegal14 s
  | .illegal15 => Sys2Proof.Machine.execIllegal15 s

end Sys2Proof.Machine
end

