-- ==== Sys2Proof/Machine/Load.lean ====
section
/-! DEFINITION. Reset with a program image: the loader's byte order, what it rejects, and the state it leaves
(70_reset_and_hazards.md R196 to R201). This is the host's transaction, not a step of the machine. -/

namespace Sys2Proof.Machine

open Sys2Proof

/-- Four image bytes as a word, most significant byte first (70_reset_and_hazards.md R198). -/
def bigEndianWord (b0 b1 b2 b3 : Byte) : Word := b0 ++ b1 ++ b2 ++ b3

/-- The words of an image, or `none` if its length is not a multiple of 4 (70_reset_and_hazards.md R198, R199). -/
def imageWords : List Byte → Option (List Word)
  | [] => some []
  | b0 :: b1 :: b2 :: b3 :: rest => (imageWords rest).map (bigEndianWord b0 b1 b2 b3 :: ·)
  | _ => none

/-- Every piece of the spec's state at its reset value, slot 0 empty. The hardware's capacity stays, and the
model's draw counter goes on, so that later input answers are fresh draws (DESIGN CHOICE, log entry 11). -/
def State.clean (s : State) : State :=
  { State.reset with inDraws := s.inDraws, maxTotalWords := s.maxTotalWords }

/-- The state a rejected reset leaves (70_reset_and_hazards.md R199), with the kind of its rejection. -/
def State.rejectImage (s : State) (k : FailKind) : State := s.clean.raise k

/-- What the loader makes of an image: the words of slot 0, or the kind of the rejection. `none` is a host that
supplies no image ("missing or unreadable file"). That, a length that is no multiple of 4 and an image of more than
2^32 - 1 words give ProgramLoadError (70_reset_and_hazards.md R198 to R200, 92_eei_decisions.md D15). An image beyond
MAX_TOTAL_WORDS gives ResourceExhausted, as 92_eei_decisions.md D7 decides for the loader; R200 words its kind
otherwise (DEDUCED, log entry 12, unsafe). -/
def State.acceptImage (s : State) (image : Option (List Byte)) : Except FailKind (List Word) :=
  match image.bind imageWords with
  | none => .error .programLoadError
  | some ws =>
    if 2 ^ 32 ≤ ws.length then .error .programLoadError
    else if s.fits ws.length = false then .error .resourceExhausted
    else .ok ws

/-- `reset(image)` (70_reset_and_hazards.md R196 to R200). -/
def State.hostReset (s : State) (image : Option (List Byte)) : State :=
  match s.acceptImage image with
  | .ok ws => { s.clean with arrays := [(0, Arr.ofWords ws)] }
  | .error k => s.rejectImage k

end Sys2Proof.Machine
end

