-- ==== Sys2Proof/Machine/Step.lean ====
section
/-! DEFINITION. The step: fetch, decode, dispatch (40_execution.md R91), and the placing of a word where the step
fetches its next instruction. -/

namespace Sys2Proof.Machine

open Sys2Proof

/-- One step (40_execution.md R91). HALTED and FAILED are absorbing: no field changes (R98; log entry 1). -/
def step (s : State) : Host.Outcome State Fault Refusal :=
  match s.status with
  | .running =>
    match s.fetch with
    | .ok w => exec (decode w) s
    | .error k => .next (s.raise k)
  | .halted => .next s
  | .failed => .next s

/-- The state with this one-word instruction in slot 0 at `pc`, slot 0 made long enough, and the machine RUNNING at
an instruction boundary, so that the very next step runs it. It stands for the host's program load (log entry 5). -/
def State.withFetchWord (s : State) (nbits w : Nat) : State :=
  { s with
    status := .running
    waitIn := false
    failKind := .noFailure
    failPc := 0#32
    arrays := Assoc.insert 0
      (({ (s.array 0#32).getD (Arr.zeros 0) with len := max (s.len 0#32) (s.pc.toNat + 1) } : Arr).write
        s.pc.toNat (tableWord nbits w)) s.arrays }

end Sys2Proof.Machine
end

