-- ==== Sys2Proof/Safety.lean ====
section
/-! DEFINITION. The terms claims are stated in: canonical memory, the invariant of the reachable states, the ends of
a run, and what a step may leave unchanged. -/

namespace Sys2Proof.Machine

open Sys2Proof

/-- An array in canonical form: offsets strictly rising and below the length, no listed word 0, and a length of at
most 2^32 - 1 words (10_state.md R23, 92_eei_decisions.md D15). -/
abbrev Arr.wf (a : Arr) : Prop :=
  Assoc.Sorted a.cells ∧ (∀ e ∈ a.cells, e.1 < a.len ∧ e.2 ≠ 0#32) ∧ a.len < 2 ^ 32

/-- ARRAYS in canonical form: 32-bit handles strictly rising, every array canonical. -/
abbrev Memory.wf (m : Memory) : Prop :=
  Assoc.Sorted m ∧ ∀ e ∈ m, e.1 < 2 ^ 32 ∧ e.2.wf

/-- The free pool's invariants: "a handle in the free pool denotes no active array", 0 is never in the pool, no
handle appears twice, every handle is below NEXT (10_state.md R24, R25). -/
structure State.FreePoolOk (s : State) : Prop where
  nodup : s.free.Nodup
  nonzero : 0#32 ∉ s.free
  inactive : ∀ h ∈ s.free, s.active h = false
  minted : ∀ h ∈ s.free, h.toNat < s.nextHandle

/-- The mint counter's invariants: NEXT is 1 to 2^32, every active handle other than 0 is below it, and every
handle minted so far is active or free (10_state.md R25; the last is 20_memory.md R49's reading of exhaustion). -/
structure State.MintOk (s : State) : Prop where
  low : 1 ≤ s.nextHandle
  high : s.nextHandle ≤ 2 ^ 32
  active : ∀ h : Word, s.active h = true → h = 0#32 ∨ h.toNat < s.nextHandle
  noLeak : ∀ h : Word, h ≠ 0#32 → h.toNat < s.nextHandle → s.active h = true ∨ h ∈ s.free

/-- The failure report's invariant: it is clear unless STATE is FAILED, and then it names a kind and `pc`
(10_state.md R21). -/
structure State.ReportOk (s : State) : Prop where
  clear : s.status ≠ .failed → s.failKind = .noFailure ∧ s.failPc = 0#32
  filled : s.status = .failed → s.failKind ≠ .noFailure ∧ s.failPc = s.pc

/-- WAIT_IN is 1 only while RUNNING at an INPUT instruction (10_state.md R30, 60_exceptions.md R185). -/
def State.WaitOk (s : State) : Prop :=
  s.waitIn = true → s.status = .running ∧ ∃ w c, s.fetch = .ok w ∧ decode w = .input c

/-- The invariant of the machine's states. -/
structure State.Inv (s : State) : Prop where
  store : Memory.wf s.arrays
  /-- "handle 0 ... always exists for the lifetime of the machine" (10_state.md R23) -/
  slot0 : s.active 0#32 = true
  pool : s.FreePoolOk
  mint : s.MintOk
  /-- TOTAL ≤ MAX_TOTAL_WORDS (10_state.md R27) -/
  room : s.fits s.arrays.total = true
  report : s.ReportOk
  wait : s.WaitOk

/-- A terminal state (00_scope.md R10). -/
def State.terminal (s : State) : Prop := s.status = .halted ∨ s.status = .failed

/-- The states of a run: a reset with some image, then steps (40_execution.md R91, 70_reset_and_hazards.md R196). -/
inductive Reachable : State → Prop where
  | reset (s : State) (image : Option (List Byte)) : Reachable (s.hostReset image)
  | step {s t : State} (h : Reachable s) (r : step s = .next t) : Reachable t

/-- `t` is `s` after failure entry with this kind: the report is written and nothing else changes
(60_exceptions.md R174). -/
structure FailsWith (s t : State) (k : FailKind) : Prop where
  status : t.status = .failed
  kind : t.failKind = k
  failPc : t.failPc = s.pc
  regs : ∀ r, t.reg r = s.reg r
  pc : t.pc = s.pc
  waitIn : t.waitIn = s.waitIn
  arrays : t.arrays = s.arrays
  free : t.free = s.free
  nextHandle : t.nextHandle = s.nextHandle
  out : t.out = s.out
  inAnswers : t.inAnswers = s.inAnswers
  inDraws : t.inDraws = s.inDraws
  maxTotalWords : t.maxTotalWords = s.maxTotalWords

/-- `t` is the state a reset leaves when it rejects its image with this kind: FAILED with FAIL_PC 0, slot 0 empty, the
rest at its reset value (70_reset_and_hazards.md R199). -/
structure RejectedWith (t : State) (k : FailKind) : Prop where
  status : t.status = .failed
  kind : t.failKind = k
  failPc : t.failPc = 0#32
  waitIn : t.waitIn = false
  active : ∀ h, t.active h = true ↔ h = 0#32
  empty : t.len 0#32 = 0
  regs : ∀ r, t.reg r = 0#32
  pc : t.pc = 0#32
  free : t.free = []
  nextHandle : t.nextHandle = 1
  out : t.out = []

/-- The array store's own state is unchanged. -/
structure SameStore (s t : State) : Prop where
  arrays : t.arrays = s.arrays
  free : t.free = s.free
  nextHandle : t.nextHandle = s.nextHandle

/-- The run status and the failure report are unchanged. -/
structure SameStatus (s t : State) : Prop where
  status : t.status = s.status
  waitIn : t.waitIn = s.waitIn
  failKind : t.failKind = s.failKind
  failPc : t.failPc = s.failPc

/-- The input channel's answers and the capacity are unchanged. -/
structure SameHost (s t : State) : Prop where
  inAnswers : t.inAnswers = s.inAnswers
  inDraws : t.inDraws = s.inDraws
  maxTotalWords : t.maxTotalWords = s.maxTotalWords

/-- `t` is `s` after an instruction that wrote `v` to register `a` and nothing else, and moved on by one word. -/
structure WritesOnlyReg (s t : State) (a : Reg) (v : Word) : Prop where
  dest : t.reg a = v
  others : ∀ r, r ≠ a → t.reg r = s.reg r
  pc : t.pc = s.pc + 1#32
  out : t.out = s.out
  store : SameStore s t
  status : SameStatus s t
  host : SameHost s t

/-- Every register, pc aside, and OUT, the run status and the host's inputs are as before: the frame of the
instructions that act on the array store. -/
structure SameButStoreAndPc (s t : State) : Prop where
  regs : ∀ r, t.reg r = s.reg r
  out : t.out = s.out
  status : SameStatus s t
  host : SameHost s t

/-- `t` is `s` after ALLOCATE put a new array of `n` zero words under handle `g` and wrote `g` to register `b`:
the registers, pc, every other array, OUT, the status and the host's inputs are as before. FREE and NEXT are said
apart (20_memory.md R48, 42_array.md R133). -/
structure Allocates (s t : State) (b : Reg) (g : Word) (n : Word) : Prop where
  dest : t.reg b = g
  others : ∀ r, r ≠ b → t.reg r = s.reg r
  pc : t.pc = s.pc + 1#32
  active : t.active g = true
  len : t.len g = n.toNat
  zeros : ∀ off : Word, off.toNat < n.toNat → t.storeRead g off = .ok 0#32
  otherArrays : ∀ h, h ≠ g → t.array h = s.array h
  out : t.out = s.out
  status : SameStatus s t
  host : SameHost s t

/-- The register an instruction may write (10_state.md R15). No instruction writes more than one. -/
def dest : Instr → Option Reg
  | .condMove a _ _ => some a
  | .arrayIndex a _ _ => some a
  | .arrayUpdate _ _ _ => none
  | .add a _ _ => some a
  | .mul a _ _ => some a
  | .div a _ _ => some a
  | .nand a _ _ => some a
  | .halt => none
  | .allocate b _ => some b
  | .deallocate _ => none
  | .output _ => none
  | .input c => some c
  | .loadProgram _ _ => none
  | .loadImmediate a _ => some a
  | .illegal14 => none
  | .illegal15 => none

/-- The failure kinds an instruction itself can raise (60_exceptions.md R171). -/
def ownFailures : Instr → List FailKind
  | .condMove _ _ _ => []
  | .arrayIndex _ _ _ => [.invalidArrayAccess]
  | .arrayUpdate _ _ _ => [.invalidArrayAccess]
  | .add _ _ _ => []
  | .mul _ _ _ => []
  | .div _ _ _ => [.divisionByZero]
  | .nand _ _ _ => []
  | .halt => []
  | .allocate _ _ => [.resourceExhausted]
  | .deallocate _ => [.invalidDeallocation]
  | .output _ => [.outputRangeError]
  | .input _ => []
  | .loadProgram _ _ => [.invalidArrayAccess, .resourceExhausted]
  | .loadImmediate _ _ => []
  | .illegal14 => [.illegalOpcode]
  | .illegal15 => [.illegalOpcode]

/-- The instructions that may change ARRAYS, FREE or NEXT (20_memory.md R42). -/
def changesStore : Instr → Bool
  | .condMove _ _ _ => false
  | .arrayIndex _ _ _ => false
  | .arrayUpdate _ _ _ => true
  | .add _ _ _ => false
  | .mul _ _ _ => false
  | .div _ _ _ => false
  | .nand _ _ _ => false
  | .halt => false
  | .allocate _ _ => true
  | .deallocate _ => true
  | .output _ => false
  | .input _ => false
  | .loadProgram _ _ => true
  | .loadImmediate _ _ => false
  | .illegal14 => false
  | .illegal15 => false

/-- Every address reads as before, but for the addresses where `written` holds: the frame of a store. -/
def SameWordsExcept (s t : State) (written : Word → Word → Prop) : Prop :=
  ∀ h off, ¬ written h off → t.storeRead h off = s.storeRead h off

end Sys2Proof.Machine
end

