-- ==== Sys2Proof/Certificates/Slice0/Obligations.lean ====
section
/-! DEFINITION. The statements for the provers, each formalising or resting on a rule of spec/. A statement whose
title says 'derived' rests on a decision or an inference the spec marks as its own, or on a log entry of the model's;
its docstring names it. -/

open Sys2Proof Sys2Proof.Machine

/-- Every word with this opcode nibble decodes to the instruction `f` reads from its fields: the match and mask of
an instruction's encoding (30_encoding.md R76). -/
def EncodedAs (pattern : Word) (f : Word → Instr) : Prop :=
  ∀ w : Word, w &&& 0xF0000000#32 = pattern → decode w = f w

/-! Encoding and decoding -/

/-- 30_encoding.md R81, the document's two decode examples. -/
def Obligations.DocumentDecodeExamples : Prop :=
  decodeFields 0x30000053#32 = { op := 3#4, a := 1, b := 2, c := 3, imm := 0#32 }
    ∧ decode 0x30000053#32 = .add 1 2 3
    ∧ opcodeField 0x30000053#32 = 0x3#4
    ∧ 0x30000053#32 &&& 0x1FF#32 = 0b001010011#32
    ∧ decodeFields 0xD4000005#32 = { op := 13#4, a := 2, b := 0, c := 0, imm := 5#32 }
    ∧ decode 0xD4000005#32 = .loadImmediate 2 5#32

/-- 30_encoding.md R74: the decoder's fields as numbers, on every word. -/
def Obligations.DecodeExtractsTheBitFields : Prop :=
  ∀ w : Word,
    (decodeFields w).op.toNat = w.toNat / 2 ^ 28
      ∧ (w.toNat / 2 ^ 28 = 13 →
          (decodeFields w).a.val = w.toNat / 2 ^ 25 % 8 ∧ (decodeFields w).b = 0 ∧ (decodeFields w).c = 0
            ∧ (decodeFields w).imm.toNat = w.toNat % 2 ^ 25)
      ∧ (w.toNat / 2 ^ 28 ≠ 13 →
          (decodeFields w).a.val = w.toNat / 2 ^ 6 % 8 ∧ (decodeFields w).b.val = w.toNat / 2 ^ 3 % 8
            ∧ (decodeFields w).c.val = w.toNat % 8 ∧ (decodeFields w).imm = 0#32)

/-- 30_encoding.md R76, the opcode map with its masks and matches, and the illegal opcodes 14 and 15. -/
def Obligations.OpcodeMapSelectsTheInstruction : Prop :=
  EncodedAs 0x00000000#32 (fun w => .condMove (regField w 6) (regField w 3) (regField w 0))
    ∧ EncodedAs 0x10000000#32 (fun w => .arrayIndex (regField w 6) (regField w 3) (regField w 0))
    ∧ EncodedAs 0x20000000#32 (fun w => .arrayUpdate (regField w 6) (regField w 3) (regField w 0))
    ∧ EncodedAs 0x30000000#32 (fun w => .add (regField w 6) (regField w 3) (regField w 0))
    ∧ EncodedAs 0x40000000#32 (fun w => .mul (regField w 6) (regField w 3) (regField w 0))
    ∧ EncodedAs 0x50000000#32 (fun w => .div (regField w 6) (regField w 3) (regField w 0))
    ∧ EncodedAs 0x60000000#32 (fun w => .nand (regField w 6) (regField w 3) (regField w 0))
    ∧ EncodedAs 0x70000000#32 (fun _ => .halt)
    ∧ EncodedAs 0x80000000#32 (fun w => .allocate (regField w 3) (regField w 0))
    ∧ EncodedAs 0x90000000#32 (fun w => .deallocate (regField w 0))
    ∧ EncodedAs 0xA0000000#32 (fun w => .output (regField w 0))
    ∧ EncodedAs 0xB0000000#32 (fun w => .input (regField w 0))
    ∧ EncodedAs 0xC0000000#32 (fun w => .loadProgram (regField w 3) (regField w 0))
    ∧ EncodedAs 0xD0000000#32 (fun w => .loadImmediate (regField w 25) (immField w))
    ∧ EncodedAs 0xE0000000#32 (fun _ => .illegal14)
    ∧ EncodedAs 0xF0000000#32 (fun _ => .illegal15)

/-- 30_encoding.md R80, R79: decoding the canonical encoding of an instruction gives it back, for every well-formed
instruction and every value of its operands. Derived: the spec marks R79 and R80 as derived. -/
def Obligations.DecodeOfEncodeIsTheInstruction : Prop :=
  ∀ i : Instr, i.wellFormed = true → decode (encode i) = i

/-- 30_encoding.md R78, R79: a decoded word is well-formed, and its canonical encoding is the word with every
ignored bit 0. Derived: that unused bits are ignored is the spec's decision D5. -/
def Obligations.EncodeOfDecodeClearsIgnoredBits : Prop :=
  ∀ w : Word, (decode w).wellFormed = true ∧ encode (decode w) = w &&& usedBits (opcodeField w)

/-- 30_encoding.md R79: two words are the same instruction exactly when they have the same opcode and the same
values of the fields that opcode uses. Derived: the spec marks R79 as derived, and rests on its decision D5. -/
def Obligations.SameInstructionIffSameUsedBits : Prop :=
  ∀ w v : Word,
    decode w = decode v ↔
      opcodeField w = opcodeField v ∧ w &&& usedBits (opcodeField w) = v &&& usedBits (opcodeField v)

/-! The step -/

/-- 40_execution.md R91: while RUNNING, a step is the execution of the decoded word at slot 0's offset pc, and every
decoded word is a well-formed instruction. Nothing stands around `exec` here: the pc update is part of each meaning.
Derived: it says the successful fetch of R91, not all of the rule. -/
def Obligations.StepRunsTheDecodedInstruction : Prop :=
  ∀ (s : State) (w : Word), s.status = .running → s.storeRead 0#32 s.pc = .ok w →
    (decode w).wellFormed = true ∧ step s = exec (decode w) s

/-- 10_state.md R18: the fetch's bound is checked at every fetch, and a pc outside slot 0 fails there with
InvalidArrayAccess. -/
def Obligations.FetchOutsideSlotZeroFails : Prop :=
  ∀ s : State, s.status = .running →
    (s.active 0#32 = true → s.pc.toNat < s.len 0#32 →
        ∃ w, s.storeRead 0#32 s.pc = .ok w ∧ step s = exec (decode w) s)
      ∧ (s.len 0#32 ≤ s.pc.toNat → step s = .next (s.raise .invalidArrayAccess))

/-- 40_execution.md R93: an opcode of 14 or more raises IllegalOpcode, and nothing else happens. What `raise` does is
`FailureEntryWritesOnlyTheReport`. -/
def Obligations.IllegalOpcodesRaiseIllegalOpcode : Prop :=
  (∀ (s : State) (w : Word), s.status = .running → s.storeRead 0#32 s.pc = .ok w → 14 ≤ w.toNat / 2 ^ 28 →
      step s = .next (s.raise .illegalOpcode))
    ∧ ∀ s : State,
      exec .illegal14 s = .next (s.raise .illegalOpcode) ∧ exec .illegal15 s = .next (s.raise .illegalOpcode)

/-- 60_exceptions.md R174: failure entry sets STATE, FAIL_KIND and FAIL_PC, and nothing else changes. Derived: the
state after a failure is the spec's decision D3. -/
def Obligations.FailureEntryWritesOnlyTheReport : Prop :=
  ∀ (s : State) (k : FailKind), FailsWith s (s.raise k) k

/-- 40_execution.md R98: no field of the state changes in a terminal state. Derived: that the model's step answers
the same state there, where no step is enabled, is log entry 1 (DEDUCED), and D14 is the spec's decision. -/
def Obligations.TerminalStatesAreAbsorbing : Prop :=
  ∀ s : State, s.terminal → step s = .next s

/-- 10_state.md R20 and 60_exceptions.md R171: the STATUS word is STATE in bits 1:0, WAIT_IN in bit 2, FAIL_KIND in
bits 7:4, and every other bit is 0. Derived: layout and codes are the spec's decision D4. -/
def Obligations.StatusWordLayout : Prop :=
  ∀ s : State,
    s.statusWord.toNat
        = (match s.status with
            | .running => 0
            | .halted => 1
            | .failed => 2)
          + 4 * (if s.waitIn then 1 else 0)
          + 16 * (match s.failKind with
            | .noFailure => 0
            | .illegalOpcode => 1
            | .divisionByZero => 2
            | .outputRangeError => 3
            | .invalidArrayAccess => 4
            | .invalidDeallocation => 5
            | .programLoadError => 6
            | .resourceExhausted => 7)

/-- 60_exceptions.md R175: a step that fails has no effect but the failure report, whatever the instruction.
Derived: decision D3. -/
def Obligations.FailingStepChangesOnlyTheReport : Prop :=
  ∀ s t : State, s.status = .running → step s = .next t → t.status = .failed →
    ∃ k, k ≠ .noFailure ∧ k ≠ .programLoadError ∧ FailsWith s t k

/-- 60_exceptions.md R171: the failure an instruction ends in is one of its own kinds, and the instructions without
a kind never fail. Derived: ResourceExhausted is the spec's decision D7. -/
def Obligations.InstructionsFailOnlyWithTheirOwnKinds : Prop :=
  ∀ (i : Instr) (s t : State), s.status = .running → exec i s = .next t → t.status = .failed →
    t.failKind ∈ ownFailures i

/-- 40_execution.md R94: every opcode has exactly one outcome, so every instruction and every step answers a next
state: no fault and no refusal. Derived, and the model's choice in two points: that the step answers the unchanged
state in HALTED and FAILED, where R91 and R98 enable no step, is log entry 1 (DEDUCED), and that a failure is a next
state is log entry 7 (DEDUCED). -/
def Obligations.EveryStepAnswersANextState : Prop :=
  (∀ (i : Instr) (s : State), ∃ t, exec i s = .next t) ∧ ∀ s : State, ∃ t, step s = .next t

/-- 40_execution.md R95: pc is left alone by HALT, set to x[C] by LOAD_PROGRAM, and 1 more modulo 2^32 after any
other instruction, when the instruction neither raised nor is still waiting for its input. -/
def Obligations.PcUpdateOfCompletedInstructions : Prop :=
  ∀ (i : Instr) (s t : State), s.status = .running → exec i s = .next t → t.status ≠ .failed →
    (i = .halt → t.pc = s.pc)
      ∧ (∀ b c, i = .loadProgram b c → t.pc = s.reg c)
      ∧ (i ≠ .halt → (∀ b c, i ≠ .loadProgram b c) → ((∃ c, i = .input c) → s.inAnswers ≠ []) →
          t.pc.toNat = (s.pc.toNat + 1) % 2 ^ 32)

/-! ALU instructions -/

/-- 41_alu.md R111. -/
def Obligations.CondMoveMovesWhenConditionNonzero : Prop :=
  EncodedAs 0x00000000#32 (fun w => .condMove (regField w 6) (regField w 3) (regField w 0))
    ∧ (∀ a b c, encode (.condMove a b c) = encS 0#4 a b c)
    ∧ ∀ (a b c : Reg) (s : State),
      (s.reg c ≠ 0#32 → ∃ t, exec (.condMove a b c) s = .next t ∧ WritesOnlyReg s t a (s.reg b))
        ∧ (s.reg c = 0#32 → ∃ t, exec (.condMove a b c) s = .next t ∧ WritesOnlyReg s t a (s.reg a))

/-- 41_alu.md R112. -/
def Obligations.AddWrapsModuloTwoToThe32 : Prop :=
  EncodedAs 0x30000000#32 (fun w => .add (regField w 6) (regField w 3) (regField w 0))
    ∧ (∀ a b c, encode (.add a b c) = encS 3#4 a b c)
    ∧ ∀ (a b c : Reg) (s : State), ∃ t v,
      exec (.add a b c) s = .next t ∧ WritesOnlyReg s t a v
        ∧ v.toNat = ((s.reg b).toNat + (s.reg c).toNat) % 2 ^ 32

/-- 41_alu.md R113, with its corner: the low word is that of the two's-complement product too. Derived: the spec marks
that corner as derived, from R113 and modular arithmetic. -/
def Obligations.MulKeepsLowWordOfProduct : Prop :=
  EncodedAs 0x40000000#32 (fun w => .mul (regField w 6) (regField w 3) (regField w 0))
    ∧ (∀ a b c, encode (.mul a b c) = encS 4#4 a b c)
    ∧ ∀ (a b c : Reg) (s : State), ∃ t v,
      exec (.mul a b c) s = .next t ∧ WritesOnlyReg s t a v
        ∧ v.toNat = ((s.reg b).toNat * (s.reg c).toNat) % 2 ^ 32
        ∧ v = BitVec.ofInt 32 ((s.reg b).toInt * (s.reg c).toInt)

/-- 41_alu.md R114. The report of the failure (kind and offset) is `FailureEntryWritesOnlyTheReport`; here, that
the divisor's zero raises, and that x[A], pc and OUT keep their values. -/
def Obligations.DivIsUnsignedFloorOrFails : Prop :=
  EncodedAs 0x50000000#32 (fun w => .div (regField w 6) (regField w 3) (regField w 0))
    ∧ (∀ a b c, encode (.div a b c) = encS 5#4 a b c)
    ∧ ∀ (a b c : Reg) (s : State),
      (s.reg c ≠ 0#32 → ∃ t v,
          exec (.div a b c) s = .next t ∧ WritesOnlyReg s t a v
            ∧ v.toNat = (s.reg b).toNat / (s.reg c).toNat ∧ v.toNat ≤ (s.reg b).toNat)
        ∧ (s.reg c = 0#32 → ∃ t,
          exec (.div a b c) s = .next t ∧ t = s.raise .divisionByZero ∧ t.status = .failed
            ∧ t.reg a = s.reg a ∧ t.pc = s.pc ∧ t.out = s.out)

/-- 41_alu.md R115. -/
def Obligations.NandIsBitwise : Prop :=
  EncodedAs 0x60000000#32 (fun w => .nand (regField w 6) (regField w 3) (regField w 0))
    ∧ (∀ a b c, encode (.nand a b c) = encS 6#4 a b c)
    ∧ ∀ (a b c : Reg) (s : State), ∃ t v,
      exec (.nand a b c) s = .next t ∧ WritesOnlyReg s t a v
        ∧ ∀ k, k < 32 → v.getLsbD k = !((s.reg b).getLsbD k && (s.reg c).getLsbD k)

/-- 41_alu.md R116: the destination is bits 27:25, the immediate bits 24:0, zero-extended. -/
def Obligations.LoadImmediateZeroExtends : Prop :=
  (∀ w : Word, w &&& 0xF0000000#32 = 0xD0000000#32 →
      ∃ a imm, decode w = .loadImmediate a imm ∧ a.val = w.toNat / 2 ^ 25 % 8 ∧ imm.toNat = w.toNat % 2 ^ 25)
    ∧ (∀ a imm, encode (.loadImmediate a imm) = encI a imm)
    ∧ ∀ (a : Reg) (imm : Word) (s : State), ∃ t,
      exec (.loadImmediate a imm) s = .next t ∧ WritesOnlyReg s t a imm

/-! Array store instructions -/

/-- 42_array.md R131. -/
def Obligations.ArrayIndexReadsOrFails : Prop :=
  EncodedAs 0x10000000#32 (fun w => .arrayIndex (regField w 6) (regField w 3) (regField w 0))
    ∧ (∀ a b c, encode (.arrayIndex a b c) = encS 1#4 a b c)
    ∧ ∀ (a b c : Reg) (s : State),
      (s.active (s.reg b) = true → (s.reg c).toNat < s.len (s.reg b) → ∃ t v,
          exec (.arrayIndex a b c) s = .next t ∧ s.storeRead (s.reg b) (s.reg c) = .ok v
            ∧ WritesOnlyReg s t a v)
        ∧ (s.active (s.reg b) = false ∨ s.len (s.reg b) ≤ (s.reg c).toNat →
          exec (.arrayIndex a b c) s = .next (s.raise .invalidArrayAccess)
            ∧ (s.raise .invalidArrayAccess).reg a = s.reg a)

/-- 42_array.md R132. A is the handle, B the offset and C the value; the frame covers every address but the one
stored to. -/
def Obligations.ArrayUpdateWritesOneWordOrFails : Prop :=
  EncodedAs 0x20000000#32 (fun w => .arrayUpdate (regField w 6) (regField w 3) (regField w 0))
    ∧ (∀ a b c, encode (.arrayUpdate a b c) = encS 2#4 a b c)
    ∧ ∀ (a b c : Reg) (s : State),
      (s.active (s.reg a) = true → (s.reg b).toNat < s.len (s.reg a) → ∃ t,
          exec (.arrayUpdate a b c) s = .next t
            ∧ t.storeRead (s.reg a) (s.reg b) = .ok (s.reg c)
            ∧ SameWordsExcept s t (fun h off => h = s.reg a ∧ off = s.reg b)
            ∧ (∀ h, t.active h = s.active h ∧ t.len h = s.len h)
            ∧ t.free = s.free ∧ t.nextHandle = s.nextHandle
            ∧ SameButStoreAndPc s t ∧ t.pc = s.pc + 1#32)
        ∧ (s.active (s.reg a) = false ∨ s.len (s.reg a) ≤ (s.reg b).toNat →
          exec (.arrayUpdate a b c) s = .next (s.raise .invalidArrayAccess)
            ∧ (s.raise .invalidArrayAccess).arrays = s.arrays)

/-- 42_array.md R133 and 20_memory.md R48 with a free handle: the most recently freed one is reused. Derived: the
capacity check and the empty array are the spec's decisions D7 and D8. -/
def Obligations.AllocateReusesMostRecentlyFreed : Prop :=
  ∀ (b c : Reg) (s : State) (g : Word) (rest : List Word), s.free = g :: rest →
    s.fits (s.arrays.total + (s.reg c).toNat) = true → ∃ t,
      exec (.allocate b c) s = .next t ∧ Allocates s t b g (s.reg c)
        ∧ t.free = rest ∧ t.nextHandle = s.nextHandle

/-- 42_array.md R133 and 20_memory.md R48 with an empty free pool: NEXT is minted and stepped by 1. Derived: the step
of the counter is the spec's decision D6, the capacity check D7. -/
def Obligations.AllocateMintsNextHandle : Prop :=
  ∀ (b c : Reg) (s : State), s.free = [] → s.nextHandle < 2 ^ 32 →
    s.fits (s.arrays.total + (s.reg c).toNat) = true → ∃ t g,
      exec (.allocate b c) s = .next t ∧ g.toNat = s.nextHandle ∧ Allocates s t b g (s.reg c)
        ∧ t.free = [] ∧ t.nextHandle = s.nextHandle + 1

/-- 20_memory.md R49: ALLOCATE raises ResourceExhausted when no handle is left, and when the store has no room, and
then changes nothing but the report. Derived: decision D7. -/
def Obligations.AllocateFailsWhenExhausted : Prop :=
  ∀ (b c : Reg) (s : State),
    s.free = [] ∧ s.nextHandle = 2 ^ 32 ∨ s.fits (s.arrays.total + (s.reg c).toNat) = false → ∃ t,
      exec (.allocate b c) s = .next t ∧ FailsWith s t .resourceExhausted

/-- 42_array.md R134 and 20_memory.md R50. -/
def Obligations.DeallocateFreesOrFails : Prop :=
  EncodedAs 0x90000000#32 (fun w => .deallocate (regField w 0))
    ∧ (∀ c, encode (.deallocate c) = encS 9#4 0 0 c)
    ∧ ∀ (c : Reg) (s : State),
      (s.reg c ≠ 0#32 → s.active (s.reg c) = true → ∃ t,
          exec (.deallocate c) s = .next t
            ∧ t.active (s.reg c) = false ∧ t.free = s.reg c :: s.free
            ∧ (∀ h, h ≠ s.reg c → t.array h = s.array h)
            ∧ t.nextHandle = s.nextHandle ∧ SameButStoreAndPc s t ∧ t.pc = s.pc + 1#32)
        ∧ (s.reg c = 0#32 ∨ s.active (s.reg c) = false →
          exec (.deallocate c) s = .next (s.raise .invalidDeallocation)
            ∧ SameStore s (s.raise .invalidDeallocation))

/-- 20_memory.md R51 with 90_conflicts.md C4: after a free, the handle can be neither read, nor written, nor freed
again, and the very next allocation gives it back with a new zero-filled array. Derived: the spec marks R51 as
derived, and the allocation's capacity check is D7. -/
def Obligations.FreedHandleIsDeadUntilReused : Prop :=
  ∀ (s t : State) (h : Word), s.dealloc h = .ok t →
    (∀ off v, t.storeRead h off = .error .invalidArrayAccess
        ∧ t.storeWrite h off v = .error .invalidArrayAccess)
      ∧ t.dealloc h = .error .invalidDeallocation
      ∧ ∀ n : Word, t.fits (t.arrays.total + n.toNat) = true → ∃ u,
        t.alloc n = .ok (h, u) ∧ u.free = s.free ∧ u.len h = n.toNat
          ∧ ∀ off : Word, off.toNat < n.toNat → u.storeRead h off = .ok 0#32

/-- 20_memory.md R43: a write changes only its own word, and a duplicate shares nothing with its source. -/
def Obligations.ArraysNeverAlias : Prop :=
  (∀ (s t : State) (h off v : Word), s.storeWrite h off v = .ok t →
      t.storeRead h off = .ok v ∧ SameWordsExcept s t (fun h' off' => h' = h ∧ off' = off))
    ∧ ∀ (s t u : State) (h off v : Word), h ≠ 0#32 → s.dup0 h = .ok t →
      (∀ off', t.storeRead 0#32 off' = t.storeRead h off')
        ∧ (t.storeWrite h off v = .ok u → ∀ off', u.storeRead 0#32 off' = t.storeRead 0#32 off')
        ∧ (t.storeWrite 0#32 off v = .ok u → ∀ off', u.storeRead h off' = t.storeRead h off')

/-! Control and I/O instructions -/

/-- 43_control_io.md R151. -/
def Obligations.HaltEntersHalted : Prop :=
  EncodedAs 0x70000000#32 (fun _ => .halt)
    ∧ encode .halt = encS 7#4 0 0 0 ∧ encS 7#4 0 0 0 = 0x70000000#32
    ∧ ∀ s : State, ∃ t,
      exec .halt s = .next t ∧ t.status = .halted
        ∧ t.pc = s.pc ∧ (∀ r, t.reg r = s.reg r) ∧ t.out = s.out ∧ SameStore s t
        ∧ t.waitIn = s.waitIn ∧ t.failKind = s.failKind ∧ t.failPc = s.failPc ∧ SameHost s t

/-- 43_control_io.md R152. -/
def Obligations.OutputAppendsOneByteOrFails : Prop :=
  EncodedAs 0xA0000000#32 (fun w => .output (regField w 0))
    ∧ (∀ c, encode (.output c) = encS 10#4 0 0 c)
    ∧ ∀ (c : Reg) (s : State),
      ((s.reg c).toNat ≤ 255 → ∃ t o,
          exec (.output c) s = .next t ∧ t.out = s.out ++ [o] ∧ o.toNat = (s.reg c).toNat
            ∧ (∀ r, t.reg r = s.reg r) ∧ t.pc = s.pc + 1#32 ∧ SameStore s t ∧ SameStatus s t ∧ SameHost s t)
        ∧ (255 < (s.reg c).toNat → ∃ t,
          exec (.output c) s = .next t ∧ t = s.raise .outputRangeError ∧ t.out = s.out)

/-- 43_control_io.md R153 with an answer at hand: a byte is zero-extended, end-of-input is all ones and no failure.
Derived: zero extension is the spec's decision D19, and that known answers stand in the state is log entry 2. -/
def Obligations.InputWritesByteOrAllOnes : Prop :=
  ∀ (c : Reg) (s : State) (ans : InputAnswer) (rest : List InputAnswer), s.inAnswers = ans :: rest → ∃ t v,
    exec (.input c) s = .next t
      ∧ (∀ o, ans = .byte o → v.toNat = o.toNat) ∧ (ans = .eof → v.toNat = 2 ^ 32 - 1)
      ∧ t.reg c = v ∧ (∀ r, r ≠ c → t.reg r = s.reg r) ∧ t.pc = s.pc + 1#32
      ∧ t.waitIn = false ∧ t.inAnswers = rest ∧ t.inDraws = s.inDraws
      ∧ t.status = s.status ∧ t.failKind = s.failKind ∧ t.failPc = s.failPc
      ∧ t.out = s.out ∧ SameStore s t ∧ t.maxTotalWords = s.maxTotalWords

/-- 10_state.md R30, 60_exceptions.md R185: with no answer at hand INPUT waits with WAIT_IN = 1, and no other state
of the spec changes. The answers then at hand are the host's next free draw, whatever it is: the statement holds for
every value of `Config.hostAnswers`. Derived: that the wait is a step of the model is log entry 3, and the draw is log
entry 2. -/
def Obligations.InputWithoutAnswerWaits : Prop :=
  ∀ (c : Reg) (s : State), s.inAnswers = [] → ∃ t,
    exec (.input c) s = .next t ∧ t.waitIn = true
      ∧ (∀ r, t.reg r = s.reg r) ∧ t.pc = s.pc ∧ t.status = s.status
      ∧ t.failKind = s.failKind ∧ t.failPc = s.failPc ∧ t.out = s.out ∧ SameStore s t
      ∧ t.maxTotalWords = s.maxTotalWords
      ∧ t.inAnswers = Config.hostAnswers s.inDraws ∧ t.inDraws = s.inDraws + 1

/-- 60_exceptions.md R185: only an answer ends the wait, and the state survives it. Derived: log entries 2 and 3. -/
def Obligations.WaitEndsOnlyWithAnAnswer : Prop :=
  ∀ s t : State, s.Inv → s.waitIn = true → step s = .next t →
    (s.inAnswers = [] ∧ t.waitIn = true ∧ t.pc = s.pc ∧ t.status = .running ∧ t.out = s.out ∧ SameStore s t
        ∧ ∀ r, t.reg r = s.reg r)
      ∨ (∃ ans rest, s.inAnswers = ans :: rest ∧ t.inAnswers = rest ∧ t.waitIn = false
        ∧ t.pc = s.pc + 1#32 ∧ t.status = .running)

/-- 43_control_io.md R154 with a zero handle: a plain jump, no copy and no check, whatever the target. Derived: of
R154 this is one case. -/
def Obligations.LoadProgramOfZeroHandleJumps : Prop :=
  ∀ (b c : Reg) (s : State), s.reg b = 0#32 → ∃ t,
    exec (.loadProgram b c) s = .next t ∧ t.pc = s.reg c ∧ SameStore s t ∧ SameButStoreAndPc s t

/-- 43_control_io.md R154 and 20_memory.md R52 with an active nonzero handle: slot 0 becomes a copy, every other
array stays, pc is the target. Derived: the capacity check is the spec's decision D7. -/
def Obligations.LoadProgramCopiesIntoSlotZero : Prop :=
  ∀ (b c : Reg) (s : State) (a : Arr), s.reg b ≠ 0#32 → s.array (s.reg b) = some a →
    s.fits (s.arrays.total - s.len 0#32 + a.len) = true → ∃ t,
      exec (.loadProgram b c) s = .next t ∧ t.pc = s.reg c
        ∧ t.array 0#32 = some a ∧ (∀ h, h ≠ 0#32 → t.array h = s.array h)
        ∧ t.free = s.free ∧ t.nextHandle = s.nextHandle ∧ SameButStoreAndPc s t

/-- 43_control_io.md R154, 20_memory.md R53, 60_exceptions.md R176: the handle check comes before the capacity check,
and a failing LOAD_PROGRAM leaves slot 0 and pc. Derived: decision D7. -/
def Obligations.LoadProgramFailsInOrder : Prop :=
  ∀ (b c : Reg) (s : State), s.reg b ≠ 0#32 →
    (s.active (s.reg b) = false → ∃ t,
        exec (.loadProgram b c) s = .next t ∧ FailsWith s t .invalidArrayAccess)
      ∧ (∀ a, s.array (s.reg b) = some a → s.fits (s.arrays.total - s.len 0#32 + a.len) = false → ∃ t,
        exec (.loadProgram b c) s = .next t ∧ FailsWith s t .resourceExhausted)

/-- 20_memory.md R63: a store into slot 0 at pc + 1 is seen by the very next fetch. Derived: the pipeline obligation
of the rule is the spec's decision D12. -/
def Obligations.StoreIntoProgramIsSeenByNextFetch : Prop :=
  ∀ (s : State) (w : Word) (a b c : Reg), s.status = .running → s.storeRead 0#32 s.pc = .ok w →
    decode w = .arrayUpdate a b c → s.reg a = 0#32 → s.reg b = s.pc + 1#32 →
    (s.reg b).toNat < s.len 0#32 →
    ∃ t, step s = .next t ∧ step t = exec (decode (s.reg c)) t

/-- 20_memory.md R64: after LOAD_PROGRAM replaced slot 0, the next fetch reads the new slot 0 at the new pc. -/
def Obligations.FetchAfterLoadProgramReadsNewProgram : Prop :=
  ∀ (s t : State) (w : Word) (b c : Reg), s.status = .running → s.storeRead 0#32 s.pc = .ok w →
    decode w = .loadProgram b c → s.reg b ≠ 0#32 → step s = .next t → t.status = .running →
    t.fetch = s.storeRead (s.reg b) (s.reg c)

/-! Frames over all instructions -/

/-- 10_state.md R15: no instruction writes a register other than its destination. Derived: the spec marks R15 as
derived. -/
def Obligations.OnlyTheDestinationRegisterChanges : Prop :=
  ∀ (i : Instr) (s t : State), exec i s = .next t → ∀ r, dest i ≠ some r → t.reg r = s.reg r

/-- 20_memory.md R42: only ARRAY_UPDATE, ALLOCATE, DEALLOCATE and LOAD_PROGRAM change the array store; only ALLOCATE
and DEALLOCATE change FREE; only ALLOCATE changes NEXT; nothing changes the capacity. Derived. -/
def Obligations.OnlyStoreInstructionsChangeTheStore : Prop :=
  ∀ (i : Instr) (s t : State), exec i s = .next t →
    (changesStore i = false → SameStore s t)
      ∧ ((∀ b c, i ≠ .allocate b c) → t.nextHandle = s.nextHandle)
      ∧ ((∀ b c, i ≠ .allocate b c) → (∀ c, i ≠ .deallocate c) → t.free = s.free)
      ∧ t.maxTotalWords = s.maxTotalWords

/-- 10_state.md R31: a byte once in OUT is never removed, and a step appends at most one, by OUTPUT. Derived:
decision D10. -/
def Obligations.OutputTraceOnlyGrows : Prop :=
  ∀ s t : State, step s = .next t →
    t.out = s.out
      ∨ ∃ w c o, s.fetch = .ok w ∧ decode w = .output c ∧ o.toNat = (s.reg c).toNat ∧ t.out = s.out ++ [o]

/-- 42_array.md R135, 10_state.md R23: no step makes the program array inactive, whatever the state. Derived: the spec
marks R135 as derived. -/
def Obligations.ProgramArrayStaysActive : Prop :=
  ∀ s t : State, s.active 0#32 = true → step s = .next t → t.active 0#32 = true

/-- 10_state.md R25: NEXT never decreases. Derived: the spec marks these invariants as derived. -/
def Obligations.NextHandleNeverDecreases : Prop :=
  ∀ s t : State, step s = .next t → s.nextHandle ≤ t.nextHandle ∧ t.nextHandle ≤ s.nextHandle + 1

/-- 40_execution.md R100 and 10_state.md R30: the input answers reach nothing but INPUT. Two states that differ in
them alone go, by any other instruction, to states that differ in them alone. Derived: log entry 2. -/
def Obligations.InputAnswersReachOnlyInput : Prop :=
  ∀ (i : Instr) (s : State) (q : List InputAnswer) (n : Nat), (∀ c, i ≠ .input c) → ∃ t,
    exec i s = .next t
      ∧ exec i { s with inAnswers := q, inDraws := n } = .next { t with inAnswers := q, inDraws := n }

/-! Invariants -/

/-- The invariant holds at `State.reset` (10_state.md R22 to R26). Derived: several of its values are the spec's
decisions D2, D4 and D6, and the model's log entries 2, 4 and 5. -/
def Obligations.InvariantHoldsAtReset : Prop := State.reset.Inv

/-- The invariant holds after a reset with any image, accepted or rejected (70_reset_and_hazards.md R197 to R200).
Derived: decisions D4, D6, D15 and D18. -/
def Obligations.InvariantHoldsAfterHostReset : Prop :=
  ∀ (s : State) (image : Option (List Byte)), (s.hostReset image).Inv

/-- Every step keeps the invariant: canonical memory, slot 0 active, the free pool's and the mint counter's
invariants, the capacity, the failure report, the wait (10_state.md R21 to R27). Derived: the spec marks most of
these invariants as derived or decided (D3, D4, D6, D7). -/
def Obligations.StepKeepsTheInvariant : Prop :=
  ∀ s t : State, s.Inv → step s = .next t → t.Inv

/-- The invariant holds of every state of every run, from a reset with any image. Derived, as the two above. -/
def Obligations.ReachableStatesMeetTheInvariant : Prop :=
  ∀ s : State, Reachable s → s.Inv

/-- 20_memory.md R54: the handle ALLOCATE hands out is not 0, was not active, and is no longer free. Derived: the spec
marks R54 as derived. -/
def Obligations.AllocatedHandleIsFresh : Prop :=
  ∀ (s t : State) (n g : Word), s.Inv → s.alloc n = .ok (g, t) →
    g ≠ 0#32 ∧ s.active g = false ∧ t.active g = true ∧ g ∉ t.free

/-- 20_memory.md R49: when FREE is empty and NEXT is 2^32, all 2^32 - 1 nonzero handles are active. Derived. -/
def Obligations.NoHandleLeftMeansAllActive : Prop :=
  ∀ s : State, s.Inv → s.free = [] → s.nextHandle = 2 ^ 32 → ∀ h : Word, h ≠ 0#32 → s.active h = true

/-- 40_execution.md R97: at a pc that passed its fetch, pc + 1 does not wrap. Derived: decision D15. -/
def Obligations.PcIncrementNeverWraps : Prop :=
  ∀ (s : State) (w : Word), s.Inv → s.fetch = .ok w → (s.pc + 1#32).toNat = s.pc.toNat + 1

/-- The canonical form is canonical: two well-formed memories with the same active handles, the same lengths and the
same words are equal data. Derived: the form is the model's own, log entry 6. -/
def Obligations.EqualMemoriesAreEqualData : Prop :=
  ∀ m n : Memory, Memory.wf m → Memory.wf n →
    (∀ k, (Assoc.find k m).map Arr.len = (Assoc.find k n).map Arr.len) →
    (∀ k a b, Assoc.find k m = some a → Assoc.find k n = some b → ∀ off, a.read off = b.read off) →
    m = n

/-! Reset and program load -/

/-- 10_state.md R16: all eight registers read 0 at reset, with any image and at `State.reset`. -/
def Obligations.RegistersAreZeroAtReset : Prop :=
  (∀ r : Reg, State.reset.reg r = 0x00000000#32)
    ∧ ∀ (s : State) (image : Option (List Byte)) (r : Reg), (s.hostReset image).reg r = 0x00000000#32

/-- 70_reset_and_hazards.md R197: every piece of the spec's state after a reset with an accepted image, the words of
slot 0 as R198 converts them. Derived: decisions D2 (pc), D4 (WAIT_IN, FAIL_KIND, FAIL_PC), D6 (NEXT), D7 and D15 (which
images are accepted). The last clause, that a reset keeps the capacity, is the model's choice (log entries 4 and 11,
DESIGN CHOICE). -/
def Obligations.StateAfterAcceptedReset : Prop :=
  ∀ (s : State) (image : List Byte) (n : Nat), image.length = 4 * n → n < 2 ^ 32 → s.fits n = true → ∃ t,
    s.hostReset (some image) = t ∧ t.pc = 0#32 ∧ t.status = .running ∧ t.waitIn = false
      ∧ t.failKind = .noFailure ∧ t.failPc = 0#32 ∧ t.free = [] ∧ t.nextHandle = 1 ∧ t.out = []
      ∧ (∀ h, t.active h = true ↔ h = 0#32) ∧ t.len 0#32 = n
      ∧ (∀ i : Nat, i < n → ∃ w,
        t.storeRead 0#32 (BitVec.ofNat 32 i) = .ok w
          ∧ w.toNat = (image.getD (4 * i) 0#8).toNat * 2 ^ 24 + (image.getD (4 * i + 1) 0#8).toNat * 2 ^ 16
            + (image.getD (4 * i + 2) 0#8).toNat * 2 ^ 8 + (image.getD (4 * i + 3) 0#8).toNat)
      ∧ (∀ r, t.reg r = 0#32) ∧ t.maxTotalWords = s.maxTotalWords

/-- 70_reset_and_hazards.md R198: the image becomes slot 0, most significant byte first. -/
def Obligations.ImageBecomesSlotZeroBigEndian : Prop :=
  ∀ (s : State) (image : List Byte) (n : Nat), image.length = 4 * n → n < 2 ^ 32 → s.fits n = true →
    (s.hostReset (some image)).len 0#32 = n
      ∧ ∀ i : Nat, i < n → ∃ w,
        (s.hostReset (some image)).storeRead 0#32 (BitVec.ofNat 32 i) = .ok w
          ∧ w.toNat = (image.getD (4 * i) 0#8).toNat * 2 ^ 24 + (image.getD (4 * i + 1) 0#8).toNat * 2 ^ 16
            + (image.getD (4 * i + 2) 0#8).toNat * 2 ^ 8 + (image.getD (4 * i + 3) 0#8).toNat

/-- 70_reset_and_hazards.md R199, R200: no image, a length that is no multiple of 4, or more than 2^32 - 1 words: the
core is FAILED with ProgramLoadError and slot 0 is empty. Derived: decisions D15 and D18. The last clause, that a step
answers the unchanged state, where 40_execution.md R98 (decision D14) enables no step, is the model's choice (log
entry 1, DEDUCED). -/
def Obligations.RejectedImageLeavesLoadError : Prop :=
  ∀ (s : State) (image : Option (List Byte)),
    (∀ bytes, image = some bytes → bytes.length % 4 ≠ 0 ∨ 2 ^ 32 ≤ bytes.length / 4) →
      RejectedWith (s.hostReset image) .programLoadError
        ∧ step (s.hostReset image) = .next (s.hostReset image)

/-- 92_eei_decisions.md D7: the loader fails with ResourceExhausted on an image of more words than the store's
capacity; the rejected state is that of 70_reset_and_hazards.md R199, with this kind. Derived: decisions D7 and D18.
Two clauses are the model's choice: that the kind is D7's, where R200 words it otherwise, is log entry 12 (DEDUCED),
and that a step answers the unchanged state is log entry 1 (DEDUCED). -/
def Obligations.OverfullImageLeavesResourceExhausted : Prop :=
  ∀ (s : State) (image : List Byte) (n : Nat), image.length = 4 * n → n < 2 ^ 32 → s.fits n = false →
    RejectedWith (s.hostReset (some image)) .resourceExhausted
      ∧ step (s.hostReset (some image)) = .next (s.hostReset (some image))
end

