-- ==== Sys2Proof/Laws/Assoc.lean ====
section
/-! SUPPORT. The laws of the finite maps behind ARRAYS and the words of an array. -/

namespace Sys2Proof.Machine

variable {α : Type}

/-! Find after insert and erase: no order is needed. -/

@[simp] theorem Assoc.find_insert_same (k : Nat) (v : α) (m : List (Nat × α)) :
    Assoc.find k (Assoc.insert k v m) = some v := by
  induction m with
  | nil => simp [Assoc.insert, Assoc.find]
  | cons e m ih =>
    unfold Assoc.insert
    split
    · simp [Assoc.find]
    · split
      · simp [Assoc.find]
      · simp_all [Assoc.find]

@[simp] theorem Assoc.find_insert_ne {j k : Nat} (v : α) (m : List (Nat × α)) (h : j ≠ k) :
    Assoc.find j (Assoc.insert k v m) = Assoc.find j m := by
  induction m with
  | nil => simp [Assoc.insert, Assoc.find, h.symm]
  | cons e m ih =>
    unfold Assoc.insert
    split
    · simp [Assoc.find, h.symm]
    · split
      · simp_all [Assoc.find, h.symm]
      · simp_all [Assoc.find]

@[simp] theorem Assoc.find_erase_same (k : Nat) (m : List (Nat × α)) : Assoc.find k (Assoc.erase k m) = none := by
  induction m with
  | nil => rfl
  | cons e m ih =>
    unfold Assoc.erase
    split
    · exact ih
    · simp_all [Assoc.find]

@[simp] theorem Assoc.find_erase_ne {j k : Nat} (m : List (Nat × α)) (h : j ≠ k) :
    Assoc.find j (Assoc.erase k m) = Assoc.find j m := by
  induction m with
  | nil => rfl
  | cons e m ih =>
    unfold Assoc.erase
    split
    · have : e.1 ≠ j := by omega
      simp_all [Assoc.find]
    · simp_all [Assoc.find]

/-! Membership -/

theorem Assoc.mem_of_find {k : Nat} {v : α} {m : List (Nat × α)} (h : Assoc.find k m = some v) : (k, v) ∈ m := by
  induction m with
  | nil => simp [Assoc.find] at h
  | cons e m ih =>
    obtain ⟨j, w⟩ := e
    simp only [Assoc.find] at h
    split at h
    · simp_all
    · exact List.mem_cons_of_mem _ (ih h)

theorem Assoc.mem_insert {k : Nat} {v : α} {m : List (Nat × α)} {e : Nat × α} (h : e ∈ Assoc.insert k v m) :
    e = (k, v) ∨ e ∈ m := by
  induction m with
  | nil => simpa [Assoc.insert] using h
  | cons d m ih =>
    unfold Assoc.insert at h
    split at h
    · simpa using h
    · split at h
      · rcases List.mem_cons.1 h with h | h
        · exact .inl h
        · exact .inr (List.mem_cons_of_mem _ h)
      · rcases List.mem_cons.1 h with h | h
        · exact .inr (h ▸ List.mem_cons_self)
        · exact (ih h).imp_right (List.mem_cons_of_mem _)

theorem Assoc.mem_erase {k : Nat} {m : List (Nat × α)} {e : Nat × α} (h : e ∈ Assoc.erase k m) : e ∈ m := by
  induction m with
  | nil => exact h
  | cons d m ih =>
    unfold Assoc.erase at h
    split at h
    · exact List.mem_cons_of_mem _ (ih h)
    · rcases List.mem_cons.1 h with h | h
      · exact h ▸ List.mem_cons_self
      · exact List.mem_cons_of_mem _ (ih h)

/-! The canonical form is kept -/

theorem Assoc.sorted_insert (k : Nat) (v : α) {m : List (Nat × α)} (h : Assoc.Sorted m) :
    Assoc.Sorted (Assoc.insert k v m) := by
  induction m with
  | nil => simp [Assoc.insert]
  | cons d m ih =>
    have ⟨hd, hm⟩ := List.pairwise_cons.1 h
    unfold Assoc.insert
    split
    · rename_i lt
      refine List.pairwise_cons.2 ⟨?_, h⟩
      intro e he
      rcases List.mem_cons.1 he with rfl | he
      · exact lt
      · exact Nat.lt_trans lt (hd e he)
    · split
      · rename_i eq
        exact List.pairwise_cons.2 ⟨fun e he => eq ▸ hd e he, hm⟩
      · refine List.pairwise_cons.2 ⟨?_, ih hm⟩
        intro e he
        rcases Assoc.mem_insert he with rfl | he
        · show d.1 < k
          omega
        · exact hd e he

theorem Assoc.sorted_erase (k : Nat) {m : List (Nat × α)} (h : Assoc.Sorted m) : Assoc.Sorted (Assoc.erase k m) := by
  induction m with
  | nil => exact h
  | cons d m ih =>
    have ⟨hd, hm⟩ := List.pairwise_cons.1 h
    unfold Assoc.erase
    split
    · exact ih hm
    · exact List.pairwise_cons.2 ⟨fun e he => hd e (Assoc.mem_erase he), ih hm⟩

/-- A key above every listed key, or below every listed key, is not bound. -/
theorem Assoc.find_none_of_forall_ne {k : Nat} {m : List (Nat × α)} (h : ∀ e ∈ m, e.1 ≠ k) :
    Assoc.find k m = none := by
  induction m with
  | nil => rfl
  | cons d m ih =>
    simp only [List.mem_cons, forall_eq_or_imp] at h
    simp [Assoc.find, h.1, ih h.2]

theorem Assoc.find_of_mem {k : Nat} {v : α} {m : List (Nat × α)} (h : Assoc.Sorted m) (i : (k, v) ∈ m) :
    Assoc.find k m = some v := by
  induction m with
  | nil => simp at i
  | cons d m ih =>
    have ⟨hd, hm⟩ := List.pairwise_cons.1 h
    rcases List.mem_cons.1 i with rfl | i
    · simp [Assoc.find]
    · have := hd _ i
      have : d.1 ≠ k := by simp at this; omega
      simp [Assoc.find, this, ih hm i]

end Sys2Proof.Machine
end

