-- ==== Sys2Proof/Laws/Decode.lean ====
section
/-! SUPPORT. The fields of a word and of an encoding as numbers, and the decoder's answer at each opcode. -/

namespace Sys2Proof

/-! The fields of a word as numbers -/

theorem opcodeField_toNat (w : Word) : (opcodeField w).toNat = w.toNat / 2 ^ 28 := by
  have := w.isLt
  simp only [opcodeField, BitVec.extractLsb'_toNat, Nat.shiftRight_eq_div_pow]
  omega

theorem regField_val (w : Word) (lo : Nat) : (regField w lo).val = w.toNat / 2 ^ lo % 8 := by
  simp [regField, BitVec.extractLsb'_toNat, Nat.shiftRight_eq_div_pow]

theorem immField_toNat (w : Word) : (immField w).toNat = w.toNat % 2 ^ 25 := by
  simp only [immField, BitVec.toNat_setWidth, BitVec.extractLsb'_toNat, Nat.shiftRight_zero]
  omega

theorem immField_le (w : Word) : (immField w).toNat ≤ maxImmediate.toNat := by
  rw [immField_toNat]
  have : maxImmediate.toNat = 33554431 := rfl
  omega

/-- The mask and match of the opcode map read the opcode field (30_encoding.md R76). -/
theorem opcodeField_of_masked {w m : Word} (h : w &&& 0xF0000000#32 = m) : opcodeField w = m.extractLsb' 28 4 := by
  subst h
  apply BitVec.eq_of_getLsbD_eq
  intro i hi
  have : (i = 0 ∨ i = 1) ∨ (i = 2 ∨ i = 3) := by omega
  rcases this with (rfl | rfl) | (rfl | rfl) <;> simp [opcodeField]

/-! The encodings as numbers -/

theorem regWord_toNat (r : Reg) : (regWord r).toNat = r.val := by
  have := r.isLt
  simp only [regWord, BitVec.toNat_ofNat]
  omega

theorem encS_toNat (op : BitVec 4) (a b c : Reg) :
    (encS op a b c).toNat = op.toNat * 2 ^ 28 + a.val * 2 ^ 6 + b.val * 2 ^ 3 + c.val := by
  have ho := op.isLt
  have ha := a.isLt
  have hb := b.isLt
  have hc := c.isLt
  have e1 : op.toNat <<< 28 % 2 ^ 32 = op.toNat <<< 28 := by rw [Nat.shiftLeft_eq]; omega
  have e2 : a.val <<< 6 % 2 ^ 32 = a.val <<< 6 := by rw [Nat.shiftLeft_eq]; omega
  have e3 : b.val <<< 3 % 2 ^ 32 = b.val <<< 3 := by rw [Nat.shiftLeft_eq]; omega
  have e4 : op.toNat % 2 ^ 32 = op.toNat := by omega
  simp only [encS, BitVec.toNat_or, BitVec.toNat_shiftLeft, BitVec.toNat_setWidth, regWord_toNat, e1, e2, e3, e4,
    Nat.or_assoc]
  rw [← Nat.shiftLeft_add_eq_or_of_lt (show c.val < 2 ^ 3 by omega),
    ← Nat.shiftLeft_add_eq_or_of_lt (show b.val <<< 3 + c.val < 2 ^ 6 by rw [Nat.shiftLeft_eq]; omega),
    ← Nat.shiftLeft_add_eq_or_of_lt
      (show a.val <<< 6 + (b.val <<< 3 + c.val) < 2 ^ 28 by simp only [Nat.shiftLeft_eq]; omega)]
  simp only [Nat.shiftLeft_eq]
  omega

theorem encI_toNat (a : Reg) (imm : Word) (h : imm.toNat ≤ maxImmediate.toNat) :
    (encI a imm).toNat = 13 * 2 ^ 28 + a.val * 2 ^ 25 + imm.toNat := by
  have m : maxImmediate.toNat = 33554431 := rfl
  have ha := a.isLt
  have e1 : (13#32).toNat <<< 28 % 2 ^ 32 = 13 <<< 28 := by decide
  have e2 : a.val <<< 25 % 2 ^ 32 = a.val <<< 25 := by rw [Nat.shiftLeft_eq]; omega
  simp only [encI, BitVec.toNat_or, BitVec.toNat_shiftLeft, regWord_toNat, e1, e2, Nat.or_assoc]
  rw [← Nat.shiftLeft_add_eq_or_of_lt (show imm.toNat < 2 ^ 25 by omega),
    ← Nat.shiftLeft_add_eq_or_of_lt (show a.val <<< 25 + imm.toNat < 2 ^ 28 by rw [Nat.shiftLeft_eq]; omega)]
  simp only [Nat.shiftLeft_eq]
  omega

/-! The fields of an encoding -/

theorem opcodeField_encS (op : BitVec 4) (a b c : Reg) : opcodeField (encS op a b c) = op := by
  have := a.isLt; have := b.isLt; have := c.isLt
  apply BitVec.eq_of_toNat_eq
  rw [opcodeField_toNat, encS_toNat]
  omega

theorem regA_encS (op : BitVec 4) (a b c : Reg) : regField (encS op a b c) 6 = a := by
  have := a.isLt; have := b.isLt; have := c.isLt
  apply Fin.ext
  rw [regField_val, encS_toNat]
  omega

theorem regB_encS (op : BitVec 4) (a b c : Reg) : regField (encS op a b c) 3 = b := by
  have := a.isLt; have := b.isLt; have := c.isLt
  apply Fin.ext
  rw [regField_val, encS_toNat]
  omega

theorem regC_encS (op : BitVec 4) (a b c : Reg) : regField (encS op a b c) 0 = c := by
  have := a.isLt; have := b.isLt; have := c.isLt
  apply Fin.ext
  rw [regField_val, encS_toNat]
  omega

theorem opcodeField_encI (a : Reg) (imm : Word) (h : imm.toNat ≤ maxImmediate.toNat) :
    opcodeField (encI a imm) = 13#4 := by
  have m : maxImmediate.toNat = 33554431 := rfl
  have := a.isLt
  apply BitVec.eq_of_toNat_eq
  rw [opcodeField_toNat, encI_toNat a imm h]
  simp only [BitVec.toNat_ofNat]
  omega

theorem regA_encI (a : Reg) (imm : Word) (h : imm.toNat ≤ maxImmediate.toNat) : regField (encI a imm) 25 = a := by
  have m : maxImmediate.toNat = 33554431 := rfl
  have := a.isLt
  apply Fin.ext
  rw [regField_val, encI_toNat a imm h]
  omega

theorem immField_encI (a : Reg) (imm : Word) (h : imm.toNat ≤ maxImmediate.toNat) :
    immField (encI a imm) = imm := by
  have m : maxImmediate.toNat = 33554431 := rfl
  have := a.isLt
  apply BitVec.eq_of_toNat_eq
  rw [immField_toNat, encI_toNat a imm h]
  omega

/-! The decoder's fields -/

theorem decodeFields_standard {w : Word} (h : opcodeField w ≠ 13#4) :
    decodeFields w
      = { op := opcodeField w, a := regField w 6, b := regField w 3, c := regField w 0, imm := 0#32 } := by
  simp [decodeFields, h]

theorem decodeFields_immediate {w : Word} (h : opcodeField w = 13#4) :
    decodeFields w = { op := 13#4, a := regField w 25, b := 0, c := 0, imm := immField w } := by
  simp [decodeFields, h]

/-! A 4-bit opcode is one of sixteen -/

theorem opcode_cases (op : BitVec 4) :
    op = 0#4 ∨ op = 1#4 ∨ op = 2#4 ∨ op = 3#4 ∨ op = 4#4 ∨ op = 5#4 ∨ op = 6#4 ∨ op = 7#4 ∨ op = 8#4 ∨ op = 9#4
      ∨ op = 10#4 ∨ op = 11#4 ∨ op = 12#4 ∨ op = 13#4 ∨ op = 14#4 ∨ op = 15#4 := by
  revert op; decide

end Sys2Proof
end

