-- ==== Sys2Proof/Laws/State.lean ====
section
/-! SUPPORT. What each update of State does to each field: one lemma per field per update, so that no proof unfolds a
record update. -/

namespace Sys2Proof.Machine

open Sys2Proof

/-! setReg -/

@[simp] theorem State.setReg_x (s : State) (r : Reg) (v : Word) : (s.setReg r v).x = s.x.set r.val v := rfl
@[simp] theorem State.setReg_pc (s : State) (r : Reg) (v : Word) : (s.setReg r v).pc = s.pc := rfl
@[simp] theorem State.setReg_status (s : State) (r : Reg) (v : Word) : (s.setReg r v).status = s.status := rfl
@[simp] theorem State.setReg_waitIn (s : State) (r : Reg) (v : Word) : (s.setReg r v).waitIn = s.waitIn := rfl
@[simp] theorem State.setReg_failKind (s : State) (r : Reg) (v : Word) : (s.setReg r v).failKind = s.failKind := rfl
@[simp] theorem State.setReg_failPc (s : State) (r : Reg) (v : Word) : (s.setReg r v).failPc = s.failPc := rfl
@[simp] theorem State.setReg_arrays (s : State) (r : Reg) (v : Word) : (s.setReg r v).arrays = s.arrays := rfl
@[simp] theorem State.setReg_free (s : State) (r : Reg) (v : Word) : (s.setReg r v).free = s.free := rfl
@[simp] theorem State.setReg_nextHandle (s : State) (r : Reg) (v : Word) : (s.setReg r v).nextHandle = s.nextHandle := rfl
@[simp] theorem State.setReg_out (s : State) (r : Reg) (v : Word) : (s.setReg r v).out = s.out := rfl
@[simp] theorem State.setReg_inAnswers (s : State) (r : Reg) (v : Word) : (s.setReg r v).inAnswers = s.inAnswers := rfl
@[simp] theorem State.setReg_inDraws (s : State) (r : Reg) (v : Word) : (s.setReg r v).inDraws = s.inDraws := rfl
@[simp] theorem State.setReg_maxTotalWords (s : State) (r : Reg) (v : Word) : (s.setReg r v).maxTotalWords = s.maxTotalWords := rfl

/-! advance -/

@[simp] theorem State.advance_x (s : State) : (s.advance).x = s.x := rfl
@[simp] theorem State.advance_pc (s : State) : (s.advance).pc = s.pc + 1#32 := rfl
@[simp] theorem State.advance_status (s : State) : (s.advance).status = s.status := rfl
@[simp] theorem State.advance_waitIn (s : State) : (s.advance).waitIn = s.waitIn := rfl
@[simp] theorem State.advance_failKind (s : State) : (s.advance).failKind = s.failKind := rfl
@[simp] theorem State.advance_failPc (s : State) : (s.advance).failPc = s.failPc := rfl
@[simp] theorem State.advance_arrays (s : State) : (s.advance).arrays = s.arrays := rfl
@[simp] theorem State.advance_free (s : State) : (s.advance).free = s.free := rfl
@[simp] theorem State.advance_nextHandle (s : State) : (s.advance).nextHandle = s.nextHandle := rfl
@[simp] theorem State.advance_out (s : State) : (s.advance).out = s.out := rfl
@[simp] theorem State.advance_inAnswers (s : State) : (s.advance).inAnswers = s.inAnswers := rfl
@[simp] theorem State.advance_inDraws (s : State) : (s.advance).inDraws = s.inDraws := rfl
@[simp] theorem State.advance_maxTotalWords (s : State) : (s.advance).maxTotalWords = s.maxTotalWords := rfl

/-! jump -/

@[simp] theorem State.jump_x (s : State) (t : Word) : (s.jump t).x = s.x := rfl
@[simp] theorem State.jump_pc (s : State) (t : Word) : (s.jump t).pc = t := rfl
@[simp] theorem State.jump_status (s : State) (t : Word) : (s.jump t).status = s.status := rfl
@[simp] theorem State.jump_waitIn (s : State) (t : Word) : (s.jump t).waitIn = s.waitIn := rfl
@[simp] theorem State.jump_failKind (s : State) (t : Word) : (s.jump t).failKind = s.failKind := rfl
@[simp] theorem State.jump_failPc (s : State) (t : Word) : (s.jump t).failPc = s.failPc := rfl
@[simp] theorem State.jump_arrays (s : State) (t : Word) : (s.jump t).arrays = s.arrays := rfl
@[simp] theorem State.jump_free (s : State) (t : Word) : (s.jump t).free = s.free := rfl
@[simp] theorem State.jump_nextHandle (s : State) (t : Word) : (s.jump t).nextHandle = s.nextHandle := rfl
@[simp] theorem State.jump_out (s : State) (t : Word) : (s.jump t).out = s.out := rfl
@[simp] theorem State.jump_inAnswers (s : State) (t : Word) : (s.jump t).inAnswers = s.inAnswers := rfl
@[simp] theorem State.jump_inDraws (s : State) (t : Word) : (s.jump t).inDraws = s.inDraws := rfl
@[simp] theorem State.jump_maxTotalWords (s : State) (t : Word) : (s.jump t).maxTotalWords = s.maxTotalWords := rfl

/-! bindZeros -/

@[simp] theorem State.bindZeros_x (s : State) (h n : Word) : (s.bindZeros h n).x = s.x := rfl
@[simp] theorem State.bindZeros_pc (s : State) (h n : Word) : (s.bindZeros h n).pc = s.pc := rfl
@[simp] theorem State.bindZeros_status (s : State) (h n : Word) : (s.bindZeros h n).status = s.status := rfl
@[simp] theorem State.bindZeros_waitIn (s : State) (h n : Word) : (s.bindZeros h n).waitIn = s.waitIn := rfl
@[simp] theorem State.bindZeros_failKind (s : State) (h n : Word) : (s.bindZeros h n).failKind = s.failKind := rfl
@[simp] theorem State.bindZeros_failPc (s : State) (h n : Word) : (s.bindZeros h n).failPc = s.failPc := rfl
@[simp] theorem State.bindZeros_arrays (s : State) (h n : Word) : (s.bindZeros h n).arrays = Assoc.insert h.toNat (Arr.zeros n.toNat) s.arrays := rfl
@[simp] theorem State.bindZeros_free (s : State) (h n : Word) : (s.bindZeros h n).free = s.free := rfl
@[simp] theorem State.bindZeros_nextHandle (s : State) (h n : Word) : (s.bindZeros h n).nextHandle = s.nextHandle := rfl
@[simp] theorem State.bindZeros_out (s : State) (h n : Word) : (s.bindZeros h n).out = s.out := rfl
@[simp] theorem State.bindZeros_inAnswers (s : State) (h n : Word) : (s.bindZeros h n).inAnswers = s.inAnswers := rfl
@[simp] theorem State.bindZeros_inDraws (s : State) (h n : Word) : (s.bindZeros h n).inDraws = s.inDraws := rfl
@[simp] theorem State.bindZeros_maxTotalWords (s : State) (h n : Word) : (s.bindZeros h n).maxTotalWords = s.maxTotalWords := rfl

/-! outWrite -/

@[simp] theorem State.outWrite_x (s : State) (b : Byte) : (s.outWrite b).x = s.x := rfl
@[simp] theorem State.outWrite_pc (s : State) (b : Byte) : (s.outWrite b).pc = s.pc := rfl
@[simp] theorem State.outWrite_status (s : State) (b : Byte) : (s.outWrite b).status = s.status := rfl
@[simp] theorem State.outWrite_waitIn (s : State) (b : Byte) : (s.outWrite b).waitIn = s.waitIn := rfl
@[simp] theorem State.outWrite_failKind (s : State) (b : Byte) : (s.outWrite b).failKind = s.failKind := rfl
@[simp] theorem State.outWrite_failPc (s : State) (b : Byte) : (s.outWrite b).failPc = s.failPc := rfl
@[simp] theorem State.outWrite_arrays (s : State) (b : Byte) : (s.outWrite b).arrays = s.arrays := rfl
@[simp] theorem State.outWrite_free (s : State) (b : Byte) : (s.outWrite b).free = s.free := rfl
@[simp] theorem State.outWrite_nextHandle (s : State) (b : Byte) : (s.outWrite b).nextHandle = s.nextHandle := rfl
@[simp] theorem State.outWrite_out (s : State) (b : Byte) : (s.outWrite b).out = s.out ++ [b] := rfl
@[simp] theorem State.outWrite_inAnswers (s : State) (b : Byte) : (s.outWrite b).inAnswers = s.inAnswers := rfl
@[simp] theorem State.outWrite_inDraws (s : State) (b : Byte) : (s.outWrite b).inDraws = s.inDraws := rfl
@[simp] theorem State.outWrite_maxTotalWords (s : State) (b : Byte) : (s.outWrite b).maxTotalWords = s.maxTotalWords := rfl

/-! awaitInput -/

@[simp] theorem State.awaitInput_x (s : State) : (s.awaitInput).x = s.x := rfl
@[simp] theorem State.awaitInput_pc (s : State) : (s.awaitInput).pc = s.pc := rfl
@[simp] theorem State.awaitInput_status (s : State) : (s.awaitInput).status = s.status := rfl
@[simp] theorem State.awaitInput_waitIn (s : State) : (s.awaitInput).waitIn = true := rfl
@[simp] theorem State.awaitInput_failKind (s : State) : (s.awaitInput).failKind = s.failKind := rfl
@[simp] theorem State.awaitInput_failPc (s : State) : (s.awaitInput).failPc = s.failPc := rfl
@[simp] theorem State.awaitInput_arrays (s : State) : (s.awaitInput).arrays = s.arrays := rfl
@[simp] theorem State.awaitInput_free (s : State) : (s.awaitInput).free = s.free := rfl
@[simp] theorem State.awaitInput_nextHandle (s : State) : (s.awaitInput).nextHandle = s.nextHandle := rfl
@[simp] theorem State.awaitInput_out (s : State) : (s.awaitInput).out = s.out := rfl
@[simp] theorem State.awaitInput_inAnswers (s : State) : (s.awaitInput).inAnswers = Config.hostAnswers s.inDraws := rfl
@[simp] theorem State.awaitInput_inDraws (s : State) : (s.awaitInput).inDraws = s.inDraws + 1 := rfl
@[simp] theorem State.awaitInput_maxTotalWords (s : State) : (s.awaitInput).maxTotalWords = s.maxTotalWords := rfl

/-! raise -/

@[simp] theorem State.raise_x (s : State) (k : FailKind) : (s.raise k).x = s.x := rfl
@[simp] theorem State.raise_pc (s : State) (k : FailKind) : (s.raise k).pc = s.pc := rfl
@[simp] theorem State.raise_status (s : State) (k : FailKind) : (s.raise k).status = .failed := rfl
@[simp] theorem State.raise_waitIn (s : State) (k : FailKind) : (s.raise k).waitIn = s.waitIn := rfl
@[simp] theorem State.raise_failKind (s : State) (k : FailKind) : (s.raise k).failKind = k := rfl
@[simp] theorem State.raise_failPc (s : State) (k : FailKind) : (s.raise k).failPc = s.pc := rfl
@[simp] theorem State.raise_arrays (s : State) (k : FailKind) : (s.raise k).arrays = s.arrays := rfl
@[simp] theorem State.raise_free (s : State) (k : FailKind) : (s.raise k).free = s.free := rfl
@[simp] theorem State.raise_nextHandle (s : State) (k : FailKind) : (s.raise k).nextHandle = s.nextHandle := rfl
@[simp] theorem State.raise_out (s : State) (k : FailKind) : (s.raise k).out = s.out := rfl
@[simp] theorem State.raise_inAnswers (s : State) (k : FailKind) : (s.raise k).inAnswers = s.inAnswers := rfl
@[simp] theorem State.raise_inDraws (s : State) (k : FailKind) : (s.raise k).inDraws = s.inDraws := rfl
@[simp] theorem State.raise_maxTotalWords (s : State) (k : FailKind) : (s.raise k).maxTotalWords = s.maxTotalWords := rfl

/-! halt -/

@[simp] theorem State.halt_x (s : State) : (s.halt).x = s.x := rfl
@[simp] theorem State.halt_pc (s : State) : (s.halt).pc = s.pc := rfl
@[simp] theorem State.halt_status (s : State) : (s.halt).status = .halted := rfl
@[simp] theorem State.halt_waitIn (s : State) : (s.halt).waitIn = s.waitIn := rfl
@[simp] theorem State.halt_failKind (s : State) : (s.halt).failKind = s.failKind := rfl
@[simp] theorem State.halt_failPc (s : State) : (s.halt).failPc = s.failPc := rfl
@[simp] theorem State.halt_arrays (s : State) : (s.halt).arrays = s.arrays := rfl
@[simp] theorem State.halt_free (s : State) : (s.halt).free = s.free := rfl
@[simp] theorem State.halt_nextHandle (s : State) : (s.halt).nextHandle = s.nextHandle := rfl
@[simp] theorem State.halt_out (s : State) : (s.halt).out = s.out := rfl
@[simp] theorem State.halt_inAnswers (s : State) : (s.halt).inAnswers = s.inAnswers := rfl
@[simp] theorem State.halt_inDraws (s : State) : (s.halt).inDraws = s.inDraws := rfl
@[simp] theorem State.halt_maxTotalWords (s : State) : (s.halt).maxTotalWords = s.maxTotalWords := rfl

/-! clean -/

@[simp] theorem State.clean_x (s : State) : (s.clean).x = Vector.replicate 8 0#32 := rfl
@[simp] theorem State.clean_pc (s : State) : (s.clean).pc = 0#32 := rfl
@[simp] theorem State.clean_status (s : State) : (s.clean).status = .running := rfl
@[simp] theorem State.clean_waitIn (s : State) : (s.clean).waitIn = false := rfl
@[simp] theorem State.clean_failKind (s : State) : (s.clean).failKind = .noFailure := rfl
@[simp] theorem State.clean_failPc (s : State) : (s.clean).failPc = 0#32 := rfl
@[simp] theorem State.clean_arrays (s : State) : (s.clean).arrays = [(0, Arr.zeros 0)] := rfl
@[simp] theorem State.clean_free (s : State) : (s.clean).free = [] := rfl
@[simp] theorem State.clean_nextHandle (s : State) : (s.clean).nextHandle = 1 := rfl
@[simp] theorem State.clean_out (s : State) : (s.clean).out = [] := rfl
@[simp] theorem State.clean_inAnswers (s : State) : (s.clean).inAnswers = [] := rfl
@[simp] theorem State.clean_inDraws (s : State) : (s.clean).inDraws = s.inDraws := rfl
@[simp] theorem State.clean_maxTotalWords (s : State) : (s.clean).maxTotalWords = s.maxTotalWords := rfl

/-! putWord: every field but ARRAYS stays -/

@[simp] theorem State.putWord_x (s : State) (h off v : Word) : (s.putWord h off v).x = s.x := by
  unfold State.putWord; split <;> rfl
@[simp] theorem State.putWord_pc (s : State) (h off v : Word) : (s.putWord h off v).pc = s.pc := by
  unfold State.putWord; split <;> rfl
@[simp] theorem State.putWord_status (s : State) (h off v : Word) : (s.putWord h off v).status = s.status := by
  unfold State.putWord; split <;> rfl
@[simp] theorem State.putWord_waitIn (s : State) (h off v : Word) : (s.putWord h off v).waitIn = s.waitIn := by
  unfold State.putWord; split <;> rfl
@[simp] theorem State.putWord_failKind (s : State) (h off v : Word) : (s.putWord h off v).failKind = s.failKind := by
  unfold State.putWord; split <;> rfl
@[simp] theorem State.putWord_failPc (s : State) (h off v : Word) : (s.putWord h off v).failPc = s.failPc := by
  unfold State.putWord; split <;> rfl
@[simp] theorem State.putWord_free (s : State) (h off v : Word) : (s.putWord h off v).free = s.free := by
  unfold State.putWord; split <;> rfl
@[simp] theorem State.putWord_nextHandle (s : State) (h off v : Word) : (s.putWord h off v).nextHandle = s.nextHandle := by
  unfold State.putWord; split <;> rfl
@[simp] theorem State.putWord_out (s : State) (h off v : Word) : (s.putWord h off v).out = s.out := by
  unfold State.putWord; split <;> rfl
@[simp] theorem State.putWord_inAnswers (s : State) (h off v : Word) : (s.putWord h off v).inAnswers = s.inAnswers := by
  unfold State.putWord; split <;> rfl
@[simp] theorem State.putWord_inDraws (s : State) (h off v : Word) : (s.putWord h off v).inDraws = s.inDraws := by
  unfold State.putWord; split <;> rfl
@[simp] theorem State.putWord_maxTotalWords (s : State) (h off v : Word) : (s.putWord h off v).maxTotalWords = s.maxTotalWords := by
  unfold State.putWord; split <;> rfl

/-! Registers -/

@[simp] theorem State.reg_setReg_same (s : State) (r : Reg) (v : Word) : (s.setReg r v).reg r = v := by
  simp [State.reg]

@[simp] theorem State.reg_setReg_ne (s : State) {r q : Reg} (v : Word) (h : q ≠ r) :
    (s.setReg r v).reg q = s.reg q := by
  have : r.val ≠ q.val := fun e => h (Fin.ext e.symm)
  simp [State.reg, Vector.getElem_set_ne, this]

theorem State.reg_of_x {s t : State} (h : t.x = s.x) (r : Reg) : t.reg r = s.reg r := by
  simp [State.reg, h]

/-- Writing a register its own value changes nothing. -/
theorem State.setReg_self (s : State) (r : Reg) : s.setReg r (s.reg r) = s := by
  have : s.x.set r.val (s.reg r) = s.x := by
    apply Vector.ext
    intro i hi
    by_cases e : r.val = i
    · subst e; simp [State.reg]
    · simp [Vector.getElem_set_ne, e]
  simp [State.setReg, this]

@[simp] theorem State.reg_advance (s : State) (q : Reg) : (s.advance).reg q = s.reg q := rfl
@[simp] theorem State.reg_jump (s : State) (t : Word) (q : Reg) : (s.jump t).reg q = s.reg q := rfl
@[simp] theorem State.reg_bindZeros (s : State) (h n : Word) (q : Reg) : (s.bindZeros h n).reg q = s.reg q := rfl
@[simp] theorem State.reg_outWrite (s : State) (b : Byte) (q : Reg) : (s.outWrite b).reg q = s.reg q := rfl
@[simp] theorem State.reg_awaitInput (s : State) (q : Reg) : (s.awaitInput).reg q = s.reg q := rfl
@[simp] theorem State.reg_raise (s : State) (k : FailKind) (q : Reg) : (s.raise k).reg q = s.reg q := rfl
@[simp] theorem State.reg_halt (s : State) (q : Reg) : (s.halt).reg q = s.reg q := rfl
@[simp] theorem State.reg_putWord (s : State) (h off v : Word) (q : Reg) : (s.putWord h off v).reg q = s.reg q :=
  State.reg_of_x (State.putWord_x s h off v) q
@[simp] theorem State.reg_clean (s : State) (q : Reg) : s.clean.reg q = 0#32 := by
  simp [State.reg]

/-! The store's reads depend on ARRAYS alone -/

theorem State.array_of_arrays {s t : State} (e : t.arrays = s.arrays) (h : Word) : t.array h = s.array h := by
  simp [State.array, e]

theorem State.active_of_arrays {s t : State} (e : t.arrays = s.arrays) (h : Word) : t.active h = s.active h := by
  simp [State.active, State.array, e]

theorem State.len_of_arrays {s t : State} (e : t.arrays = s.arrays) (h : Word) : t.len h = s.len h := by
  simp [State.len, State.array, e]

@[simp] theorem State.array_setReg (s : State) (r : Reg) (v : Word) (g : Word) : (s.setReg r v).array g = s.array g := rfl
@[simp] theorem State.storeRead_setReg (s : State) (r : Reg) (v : Word) (g o : Word) : (s.setReg r v).storeRead g o = s.storeRead g o := rfl
@[simp] theorem State.array_advance (s : State) (g : Word) : (s.advance).array g = s.array g := rfl
@[simp] theorem State.storeRead_advance (s : State) (g o : Word) : (s.advance).storeRead g o = s.storeRead g o := rfl
@[simp] theorem State.array_jump (s : State) (t : Word) (g : Word) : (s.jump t).array g = s.array g := rfl
@[simp] theorem State.storeRead_jump (s : State) (t : Word) (g o : Word) : (s.jump t).storeRead g o = s.storeRead g o := rfl
@[simp] theorem State.array_outWrite (s : State) (b : Byte) (g : Word) : (s.outWrite b).array g = s.array g := rfl
@[simp] theorem State.storeRead_outWrite (s : State) (b : Byte) (g o : Word) : (s.outWrite b).storeRead g o = s.storeRead g o := rfl
@[simp] theorem State.array_awaitInput (s : State) (g : Word) : (s.awaitInput).array g = s.array g := rfl
@[simp] theorem State.storeRead_awaitInput (s : State) (g o : Word) : (s.awaitInput).storeRead g o = s.storeRead g o := rfl
@[simp] theorem State.array_raise (s : State) (k : FailKind) (g : Word) : (s.raise k).array g = s.array g := rfl
@[simp] theorem State.storeRead_raise (s : State) (k : FailKind) (g o : Word) : (s.raise k).storeRead g o = s.storeRead g o := rfl
@[simp] theorem State.array_halt (s : State) (g : Word) : (s.halt).array g = s.array g := rfl
@[simp] theorem State.storeRead_halt (s : State) (g o : Word) : (s.halt).storeRead g o = s.storeRead g o := rfl

/-! How an instruction ends -/

@[simp] theorem State.conclude_ok (s t : State) : s.conclude (.ok t) = t := rfl

@[simp] theorem State.conclude_error (s : State) (k : FailKind) : s.conclude (.error k) = s.raise k := rfl

end Sys2Proof.Machine
end

