-- ==== Sys2Proof/Laws/Store.lean ====
section
/-! SUPPORT. What each store operation can do: one lemma says its whole answer, and the canonical form is kept. -/

namespace Sys2Proof.Machine

open Sys2Proof

/-! Words of an array -/

@[simp] theorem Arr.read_zeros (n off : Nat) : (Arr.zeros n).read off = 0#32 := rfl

@[simp] theorem Arr.len_zeros (n : Nat) : (Arr.zeros n).len = n := rfl

@[simp] theorem Arr.len_write (a : Arr) (off : Nat) (v : Word) : (a.write off v).len = a.len := rfl

@[simp] theorem Arr.read_write_same (a : Arr) (off : Nat) (v : Word) : (a.write off v).read off = v := by
  unfold Arr.read Arr.write
  dsimp only
  split
  · rename_i h; simp [h]
  · simp

@[simp] theorem Arr.read_write_ne (a : Arr) {off o : Nat} (v : Word) (h : o ≠ off) :
    (a.write off v).read o = a.read o := by
  unfold Arr.read Arr.write
  dsimp only
  split <;> simp [h]

theorem Arr.wf_zeros {n : Nat} (h : n < 2 ^ 32) : (Arr.zeros n).wf :=
  ⟨List.Pairwise.nil, fun _ he => absurd he List.not_mem_nil, h⟩

theorem Arr.wf_write {a : Arr} {off : Nat} (v : Word) (w : a.wf) (h : off < a.len) : (a.write off v).wf := by
  obtain ⟨sorted, cells, len⟩ := w
  unfold Arr.write
  split
  · exact ⟨Assoc.sorted_erase _ sorted, fun e he => cells e (Assoc.mem_erase he), len⟩
  · rename_i hv
    refine ⟨Assoc.sorted_insert _ _ sorted, fun e he => ?_, len⟩
    rcases Assoc.mem_insert he with rfl | he
    · exact ⟨h, hv⟩
    · exact cells e he

theorem Arr.mem_cellsFrom {k : Nat} {ws : List Word} {e : Nat × Word} (h : e ∈ Arr.cellsFrom k ws) :
    k ≤ e.1 ∧ e.1 < k + ws.length ∧ e.2 ≠ 0#32 := by
  induction ws generalizing k with
  | nil => simp [Arr.cellsFrom] at h
  | cons w ws ih =>
    unfold Arr.cellsFrom at h
    simp only [List.length_cons]
    split at h
    · have ⟨lo, hi, nz⟩ := ih h
      exact ⟨by omega, by omega, nz⟩
    · rename_i hw
      rcases List.mem_cons.1 h with rfl | h
      · exact ⟨Nat.le_refl _, by simp, hw⟩
      · have ⟨lo, hi, nz⟩ := ih h
        exact ⟨by omega, by omega, nz⟩

theorem Arr.sorted_cellsFrom (k : Nat) (ws : List Word) : Assoc.Sorted (Arr.cellsFrom k ws) := by
  induction ws generalizing k with
  | nil => simp [Arr.cellsFrom]
  | cons w ws ih =>
    unfold Arr.cellsFrom
    split
    · exact ih _
    · refine List.pairwise_cons.2 ⟨fun e he => ?_, ih _⟩
      have := Arr.mem_cellsFrom he
      show k < e.1
      omega

theorem Arr.wf_ofWords {ws : List Word} (h : ws.length < 2 ^ 32) : (Arr.ofWords ws).wf := by
  refine ⟨Arr.sorted_cellsFrom _ _, fun e he => ?_, h⟩
  have := Arr.mem_cellsFrom he
  exact ⟨by simp only [Arr.ofWords]; omega, this.2.2⟩

theorem Arr.find_cellsFrom (k : Nat) (ws : List Word) (i : Nat) :
    (Assoc.find (k + i) (Arr.cellsFrom k ws)).getD 0#32 = ws.getD i 0#32 := by
  induction ws generalizing k i with
  | nil => simp [Arr.cellsFrom, Assoc.find]
  | cons w ws ih =>
    unfold Arr.cellsFrom
    cases i with
    | zero =>
      split
      · rename_i hw
        have : Assoc.find k (Arr.cellsFrom (k + 1) ws) = none :=
          Assoc.find_none_of_forall_ne fun e he => by have := Arr.mem_cellsFrom he; omega
        simp [this, hw]
      · simp [Assoc.find]
    | succ i =>
      have step : k + (i + 1) = k + 1 + i := by omega
      split
      · rw [step, ih]; simp
      · have : k ≠ k + (i + 1) := by omega
        simp only [Assoc.find, this, if_false]
        rw [step, ih]; simp

/-- An array made from words reads those words. -/
theorem Arr.read_ofWords (ws : List Word) (i : Nat) : (Arr.ofWords ws).read i = ws.getD i 0#32 := by
  have := Arr.find_cellsFrom 0 ws i
  simpa [Arr.read, Arr.ofWords] using this

/-! TOTAL -/

theorem Memory.total_erase {m : Memory} (h : Assoc.Sorted m) (k : Nat) :
    Memory.total (Assoc.erase k m) + ((Assoc.find k m).map Arr.len).getD 0 = Memory.total m := by
  induction m with
  | nil => rfl
  | cons e m ih =>
    have ⟨he, hm⟩ := List.pairwise_cons.1 h
    unfold Assoc.erase
    split
    · rename_i eq
      have none : Assoc.find k m = none := Assoc.find_none_of_forall_ne fun d hd => by have := he d hd; omega
      have := ih hm
      simp only [none, Option.map_none, Option.getD_none] at this
      simp [Assoc.find, eq, Memory.total]; omega
    · rename_i ne
      have := ih hm
      simp only [Assoc.find, ne, if_false, Memory.total]; omega

theorem Memory.total_insert {m : Memory} (h : Assoc.Sorted m) (k : Nat) (a : Arr) :
    Memory.total (Assoc.insert k a m) + ((Assoc.find k m).map Arr.len).getD 0 = Memory.total m + a.len := by
  induction m with
  | nil => simp [Assoc.insert, Assoc.find, Memory.total]
  | cons e m ih =>
    have ⟨he, hm⟩ := List.pairwise_cons.1 h
    unfold Assoc.insert
    split
    · rename_i lt
      have ne : e.1 ≠ k := by omega
      have none : Assoc.find k m = none := Assoc.find_none_of_forall_ne fun d hd => by have := he d hd; omega
      simp [Assoc.find, ne, none, Memory.total]; omega
    · split
      · rename_i eq
        simp [Assoc.find, eq, Memory.total]; omega
      · rename_i ne
        have := ih hm
        simp only [Assoc.find, ne, if_false, Memory.total]; omega

/-- TOTAL counts a bound array. -/
theorem Memory.len_le_total {m : Memory} {k : Nat} {a : Arr} (h : Assoc.find k m = some a) : a.len ≤ m.total := by
  induction m with
  | nil => simp [Assoc.find] at h
  | cons e m ih =>
    simp only [Assoc.find] at h
    split at h
    · cases h; simp [Memory.total]
    · have := ih h; simp [Memory.total]; omega

/-! The canonical form of ARRAYS -/

theorem Memory.wf_insert {m : Memory} {k : Nat} {a : Arr} (w : Memory.wf m) (hk : k < 2 ^ 32) (ha : a.wf) :
    Memory.wf (Assoc.insert k a m) := by
  refine ⟨Assoc.sorted_insert _ _ w.1, fun e he => ?_⟩
  rcases Assoc.mem_insert he with rfl | he
  · exact ⟨hk, ha⟩
  · exact w.2 e he

theorem Memory.wf_erase {m : Memory} (k : Nat) (w : Memory.wf m) : Memory.wf (Assoc.erase k m) :=
  ⟨Assoc.sorted_erase _ w.1, fun e he => w.2 e (Assoc.mem_erase he)⟩

theorem Memory.wf_find {m : Memory} {k : Nat} {a : Arr} (w : Memory.wf m) (h : Assoc.find k m = some a) : a.wf :=
  (w.2 _ (Assoc.mem_of_find h)).2

theorem Memory.wf_reset : Memory.wf State.reset.arrays := by
  simp [State.reset, Memory.wf, Arr.wf]

/-! Arrays after an insert or an erase -/

theorem State.array_insert_same {s t : State} {h : Word} {a : Arr}
    (e : t.arrays = Assoc.insert h.toNat a s.arrays) : t.array h = some a := by
  simp [State.array, e]

theorem State.array_insert_ne {s t : State} {h g : Word} {a : Arr}
    (e : t.arrays = Assoc.insert h.toNat a s.arrays) (ne : g ≠ h) : t.array g = s.array g := by
  have : g.toNat ≠ h.toNat := fun c => ne (BitVec.eq_of_toNat_eq c)
  simp [State.array, e, this]

theorem State.array_erase_same {s t : State} {h : Word} (e : t.arrays = Assoc.erase h.toNat s.arrays) :
    t.array h = none := by
  simp [State.array, e]

theorem State.array_erase_ne {s t : State} {h g : Word} (e : t.arrays = Assoc.erase h.toNat s.arrays)
    (ne : g ≠ h) : t.array g = s.array g := by
  have : g.toNat ≠ h.toNat := fun c => ne (BitVec.eq_of_toNat_eq c)
  simp [State.array, e, this]

/-! The predicates and the read of a bound or an unbound handle -/

theorem State.active_some {s : State} {h : Word} {a : Arr} (e : s.array h = some a) : s.active h = true := by
  simp [State.active, e]

theorem State.active_none {s : State} {h : Word} (e : s.array h = none) : s.active h = false := by
  simp [State.active, e]

theorem State.active_iff {s : State} {h : Word} : s.active h = true ↔ ∃ a, s.array h = some a := by
  simp [State.active, Option.isSome_iff_exists]

theorem State.inactive_iff {s : State} {h : Word} : s.active h = false ↔ s.array h = none := by
  simp [State.active]

theorem State.len_some {s : State} {h : Word} {a : Arr} (e : s.array h = some a) : s.len h = a.len := by
  simp [State.len, e]

theorem State.active_congr {s t : State} {h : Word} (e : t.array h = s.array h) : t.active h = s.active h := by
  simp [State.active, e]

theorem State.len_congr {s t : State} {h : Word} (e : t.array h = s.array h) : t.len h = s.len h := by
  simp [State.len, e]

/-- StoreRead's whole answer at an active handle (20_memory.md R45). -/
theorem State.storeRead_some {s : State} {h : Word} {a : Arr} (e : s.array h = some a) (off : Word) :
    s.storeRead h off = if off.toNat < a.len then .ok (a.read off.toNat) else .error .invalidArrayAccess := by
  simp [State.storeRead, State.valid, State.active, State.len, State.wordAt, e]

/-- StoreRead's answer at an inactive handle (20_memory.md R45). -/
theorem State.storeRead_none {s : State} {h : Word} (e : s.array h = none) (off : Word) :
    s.storeRead h off = .error .invalidArrayAccess := by
  simp [State.storeRead, State.valid, State.active, e]

/-- Two handles bound to equal arrays read alike. -/
theorem State.storeRead_same_array {s t : State} {g h : Word} (e : t.array g = s.array h) (off : Word) :
    t.storeRead g off = s.storeRead h off := by
  cases f : s.array h with
  | none => rw [State.storeRead_none f, State.storeRead_none (e.trans f)]
  | some a => rw [State.storeRead_some f, State.storeRead_some (e.trans f)]

theorem State.storeRead_congr {s t : State} {h : Word} (e : t.array h = s.array h) (off : Word) :
    t.storeRead h off = s.storeRead h off := State.storeRead_same_array e off

theorem State.storeRead_of_arrays {s t : State} (e : t.arrays = s.arrays) (h off : Word) :
    t.storeRead h off = s.storeRead h off := State.storeRead_congr (State.array_of_arrays e h) off

theorem State.storeRead_ok {s : State} {h off v : Word} (r : s.storeRead h off = .ok v) :
    ∃ a, s.array h = some a ∧ off.toNat < a.len ∧ v = a.read off.toNat := by
  cases e : s.array h with
  | none => simp [State.storeRead_none e] at r
  | some a =>
    rw [State.storeRead_some e] at r
    split at r
    · exact ⟨a, rfl, ‹_›, by simpa using r.symm⟩
    · simp at r

/-- A failing read fails with InvalidArrayAccess. -/
theorem State.storeRead_error {s : State} {h off : Word} {k : FailKind} (r : s.storeRead h off = .error k) :
    k = .invalidArrayAccess := by
  unfold State.storeRead at r
  split at r
  · simp at r
  · simpa using r.symm

theorem State.storeRead_invalid {s : State} {h off : Word}
    (e : s.active h = false ∨ s.len h ≤ off.toNat) : s.storeRead h off = .error .invalidArrayAccess := by
  have : s.valid h off = false := by
    rcases e with e | e
    · simp [State.valid, e]
    · simp [State.valid]; exact fun _ => e
  simp [State.storeRead, this]

/-! StoreWrite -/

/-- Everything StoreWrite can do (20_memory.md R47): a valid address, and ARRAYS with that one array replaced by one
with that one word replaced; or InvalidArrayAccess. -/
theorem State.storeWrite_cases (s : State) (h off v : Word) :
    (∃ a, s.array h = some a ∧ off.toNat < a.len ∧
      s.storeWrite h off v = .ok { s with arrays := Assoc.insert h.toNat (a.write off.toNat v) s.arrays })
    ∨ ((s.active h = false ∨ s.len h ≤ off.toNat) ∧ s.storeWrite h off v = .error .invalidArrayAccess) := by
  cases e : s.array h with
  | none => exact .inr ⟨.inl (State.active_none e), by simp [State.storeWrite, State.valid, State.active, e]⟩
  | some a =>
    by_cases lt : off.toNat < a.len
    · exact .inl ⟨a, rfl, lt, by simp [State.storeWrite, State.valid, State.active, State.len, e, lt, State.putWord]⟩
    · exact .inr ⟨.inr (by rw [State.len_some e]; omega),
        by simp [State.storeWrite, State.valid, State.active, State.len, e, lt]⟩

/-! Alloc, Free and Dup0 -/

/-- Everything Alloc can do (20_memory.md R48, R49): no handle or no room left; or the top of FREE is reused; or NEXT
is minted. -/
theorem State.alloc_cases (s : State) (n : Word) :
    ((s.free = [] ∧ 2 ^ 32 ≤ s.nextHandle ∨ s.fits (s.arrays.total + n.toNat) = false)
      ∧ s.alloc n = .error .resourceExhausted)
    ∨ (∃ h rest, s.free = h :: rest ∧ s.fits (s.arrays.total + n.toNat) = true
      ∧ s.alloc n = .ok (h, ({ s with free := rest }).bindZeros h n))
    ∨ (s.free = [] ∧ s.nextHandle < 2 ^ 32 ∧ s.fits (s.arrays.total + n.toNat) = true
      ∧ s.alloc n = .ok (BitVec.ofNat 32 s.nextHandle,
        ({ s with nextHandle := s.nextHandle + 1 }).bindZeros (BitVec.ofNat 32 s.nextHandle) n)) := by
  unfold State.alloc
  split
  · exact .inl ⟨.inl ‹_›, rfl⟩
  · split
    · exact .inl ⟨.inr ‹_›, rfl⟩
    · rename_i left room
      have room : s.fits (s.arrays.total + n.toNat) = true := by simpa using room
      cases f : s.free with
      | cons h rest => exact .inr (.inl ⟨h, rest, rfl, room, rfl⟩)
      | nil =>
        have : s.nextHandle < 2 ^ 32 := by
          rcases Nat.lt_or_ge s.nextHandle (2 ^ 32) with lt | ge
          · exact lt
          · exact absurd ⟨f, ge⟩ left
        exact .inr (.inr ⟨rfl, this, room, rfl⟩)

/-- Everything Free can do (20_memory.md R50). -/
theorem State.dealloc_cases (s : State) (h : Word) :
    ((h = 0#32 ∨ s.active h = false) ∧ s.dealloc h = .error .invalidDeallocation)
    ∨ (h ≠ 0#32 ∧ s.active h = true
      ∧ s.dealloc h = .ok { s with arrays := Assoc.erase h.toNat s.arrays, free := h :: s.free }) := by
  unfold State.dealloc
  split
  · exact .inl ⟨‹_›, rfl⟩
  · rename_i c
    have := not_or.1 c
    exact .inr ⟨this.1, by simpa using this.2, rfl⟩

/-- Everything Dup0 can do (20_memory.md R52, R53): nothing for handle 0; the handle check; the capacity check; the
copy. -/
theorem State.dup0_cases (s : State) (h : Word) :
    (h = 0#32 ∧ s.dup0 h = .ok s)
    ∨ (h ≠ 0#32 ∧ s.array h = none ∧ s.dup0 h = .error .invalidArrayAccess)
    ∨ (∃ a, h ≠ 0#32 ∧ s.array h = some a ∧ s.fits (s.arrays.total - s.len 0#32 + a.len) = false
      ∧ s.dup0 h = .error .resourceExhausted)
    ∨ (∃ a, h ≠ 0#32 ∧ s.array h = some a ∧ s.fits (s.arrays.total - s.len 0#32 + a.len) = true
      ∧ s.dup0 h = .ok { s with arrays := Assoc.insert 0 a s.arrays }) := by
  by_cases z : h = 0#32
  · exact .inl ⟨z, by simp [State.dup0, z]⟩
  · cases e : s.array h with
    | none => exact .inr (.inl ⟨z, rfl, by simp [State.dup0, z, e]⟩)
    | some a =>
      cases f : s.fits (s.arrays.total - s.len 0#32 + a.len) with
      | false => exact .inr (.inr (.inl ⟨a, z, rfl, f, by simp [State.dup0, z, e, f]⟩))
      | true => exact .inr (.inr (.inr ⟨a, z, rfl, f, by simp [State.dup0, z, e, f]⟩))

/-! Every store operation keeps the canonical form -/

theorem State.storeWrite_wf {s t : State} {h off v : Word} (w : Memory.wf s.arrays)
    (r : s.storeWrite h off v = .ok t) : Memory.wf t.arrays := by
  rcases s.storeWrite_cases h off v with ⟨a, ha, lt, e⟩ | ⟨_, e⟩
  · rw [e] at r; cases r
    exact Memory.wf_insert w h.isLt (Arr.wf_write v (Memory.wf_find w ha) lt)
  · rw [e] at r; cases r

theorem State.alloc_wf {s t : State} {n h : Word} (w : Memory.wf s.arrays) (r : s.alloc n = .ok (h, t)) :
    Memory.wf t.arrays := by
  have zeros : (Arr.zeros n.toNat).wf := Arr.wf_zeros n.isLt
  rcases s.alloc_cases n with ⟨_, e⟩ | ⟨g, rest, _, _, e⟩ | ⟨_, _, _, e⟩ <;> rw [e] at r <;> cases r
  · exact Memory.wf_insert w (BitVec.isLt _) zeros
  · exact Memory.wf_insert w (BitVec.isLt _) zeros

theorem State.dealloc_wf {s t : State} {h : Word} (w : Memory.wf s.arrays) (r : s.dealloc h = .ok t) :
    Memory.wf t.arrays := by
  rcases s.dealloc_cases h with ⟨_, e⟩ | ⟨_, _, e⟩ <;> rw [e] at r <;> cases r
  exact Memory.wf_erase _ w

theorem State.dup0_wf {s t : State} {h : Word} (w : Memory.wf s.arrays) (r : s.dup0 h = .ok t) :
    Memory.wf t.arrays := by
  rcases s.dup0_cases h with ⟨_, e⟩ | ⟨_, _, e⟩ | ⟨a, _, _, _, e⟩ | ⟨a, _, ha, _, e⟩ <;> rw [e] at r <;> cases r
  · exact w
  · exact Memory.wf_insert w (by decide) (Memory.wf_find w ha)

/-- Everything the loader can do with an image: reject it, by kind; or accept its words, which then fit. -/
theorem State.acceptImage_cases (s : State) (image : Option (List Byte)) :
    (image.bind imageWords = none ∧ s.acceptImage image = .error .programLoadError)
    ∨ ∃ ws, image.bind imageWords = some ws
      ∧ ((2 ^ 32 ≤ ws.length ∧ s.acceptImage image = .error .programLoadError)
        ∨ (ws.length < 2 ^ 32 ∧ s.fits ws.length = false ∧ s.acceptImage image = .error .resourceExhausted)
        ∨ (ws.length < 2 ^ 32 ∧ s.fits ws.length = true ∧ s.acceptImage image = .ok ws)) := by
  unfold State.acceptImage
  cases image.bind imageWords with
  | none => exact .inl ⟨rfl, rfl⟩
  | some ws =>
    refine .inr ⟨ws, rfl, ?_⟩
    by_cases big : 2 ^ 32 ≤ ws.length
    · exact .inl ⟨big, if_pos big⟩
    · cases room : s.fits ws.length
      · exact .inr (.inl ⟨Nat.lt_of_not_le big, rfl, (if_neg big).trans (by simp [room])⟩)
      · exact .inr (.inr ⟨Nat.lt_of_not_le big, rfl, (if_neg big).trans (by simp [room])⟩)

/-- Everything a host reset can do: leave the rejected state with ProgramLoadError or ResourceExhausted; or the clean
state with an image that fits in slot 0. -/
theorem State.hostReset_cases (s : State) (image : Option (List Byte)) :
    (∃ k, (k = .programLoadError ∨ k = .resourceExhausted) ∧ s.hostReset image = s.rejectImage k)
    ∨ ∃ ws : List Word, ws.length < 2 ^ 32 ∧ s.fits ws.length = true
      ∧ s.hostReset image = { s.clean with arrays := [(0, Arr.ofWords ws)] } := by
  unfold State.hostReset
  rcases s.acceptImage_cases image with ⟨_, e⟩ | ⟨ws, _, ⟨_, e⟩ | ⟨_, _, e⟩ | ⟨lt, room, e⟩⟩ <;> rw [e]
  · exact .inl ⟨_, .inl rfl, rfl⟩
  · exact .inl ⟨_, .inl rfl, rfl⟩
  · exact .inl ⟨_, .inr rfl, rfl⟩
  · exact .inr ⟨ws, lt, room, rfl⟩

theorem State.hostReset_wf (s : State) (image : Option (List Byte)) : Memory.wf (s.hostReset image).arrays := by
  rcases s.hostReset_cases image with ⟨k, _, e⟩ | ⟨ws, lt, _, e⟩ <;> rw [e]
  · simp [State.rejectImage, Arr.zeros, Memory.wf, Arr.wf]
  · exact ⟨by simp, fun e he => by simp at he; exact he ▸ ⟨Nat.two_pow_pos 32, Arr.wf_ofWords lt⟩⟩

/-! Console -/

/-- Everything InRead can do (10_state.md R30): take the oldest answer and end the wait; or there is none yet. -/
theorem State.inRead_cases (s : State) :
    (s.inAnswers = [] ∧ s.inRead = none)
    ∨ (∃ a rest, s.inAnswers = a :: rest ∧ s.inRead = some (a, { s with inAnswers := rest, waitIn := false })) := by
  cases e : s.inAnswers with
  | nil => exact .inl ⟨rfl, by simp [State.inRead, e]⟩
  | cons a rest => exact .inr ⟨a, rest, rfl, by simp [State.inRead, e]⟩

end Sys2Proof.Machine
end

