-- ==== Sys2Proof/Laws/Exec.lean ====
section
/-! SUPPORT. What each instruction and each step can do, said once: `exec_<instruction>` gives the next state in
terms of the named operations, and `step_cases` every way a step can go. -/

namespace Sys2Proof.Machine

open Sys2Proof

theorem exec_condMove (a b c : Reg) (s : State) :
    exec (.condMove a b c) s = .next (if s.reg c = 0#32 then s.advance else (s.setReg a (s.reg b)).advance) := by
  simp [exec, execCondMove, condHolds]

theorem exec_add (a b c : Reg) (s : State) :
    exec (.add a b c) s = .next (s.setReg a (s.reg b + s.reg c)).advance := rfl

theorem exec_mul (a b c : Reg) (s : State) :
    exec (.mul a b c) s = .next (s.setReg a (s.reg b * s.reg c)).advance := rfl

theorem exec_div (a b c : Reg) (s : State) :
    exec (.div a b c) s
      = .next (if s.reg c = 0#32 then s.raise .divisionByZero
        else (s.setReg a (s.reg b / s.reg c)).advance) := by
  by_cases h : s.reg c = 0#32 <;> simp [exec, execDiv, divisorIsZero, quotient, h]

theorem exec_nand (a b c : Reg) (s : State) :
    exec (.nand a b c) s = .next (s.setReg a (~~~(s.reg b &&& s.reg c))).advance := rfl

theorem exec_loadImmediate (a : Reg) (imm : Word) (s : State) :
    exec (.loadImmediate a imm) s = .next (s.setReg a imm).advance := rfl

theorem exec_arrayIndex_ok (a b c : Reg) {s : State} {v : Word} (h : s.storeRead (s.reg b) (s.reg c) = .ok v) :
    exec (.arrayIndex a b c) s = .next (s.setReg a v).advance := by
  simp [exec, execArrayIndex, h, Except.map]

theorem exec_arrayIndex_error (a b c : Reg) {s : State} {k : FailKind}
    (h : s.storeRead (s.reg b) (s.reg c) = .error k) : exec (.arrayIndex a b c) s = .next (s.raise k) := by
  simp [exec, execArrayIndex, h, Except.map]

theorem exec_arrayUpdate_ok (a b c : Reg) {s t : State}
    (h : s.storeWrite (s.reg a) (s.reg b) (s.reg c) = .ok t) : exec (.arrayUpdate a b c) s = .next t.advance := by
  simp [exec, execArrayUpdate, h, Except.map]

theorem exec_arrayUpdate_error (a b c : Reg) {s : State} {k : FailKind}
    (h : s.storeWrite (s.reg a) (s.reg b) (s.reg c) = .error k) :
    exec (.arrayUpdate a b c) s = .next (s.raise k) := by
  simp [exec, execArrayUpdate, h, Except.map]

theorem exec_allocate_ok (b c : Reg) {s t : State} {g : Word} (h : s.alloc (s.reg c) = .ok (g, t)) :
    exec (.allocate b c) s = .next (t.setReg b g).advance := by
  simp [exec, execAllocate, h, Except.map]

theorem exec_allocate_error (b c : Reg) {s : State} {k : FailKind} (h : s.alloc (s.reg c) = .error k) :
    exec (.allocate b c) s = .next (s.raise k) := by
  simp [exec, execAllocate, h, Except.map]

theorem exec_deallocate_ok (c : Reg) {s t : State} (h : s.dealloc (s.reg c) = .ok t) :
    exec (.deallocate c) s = .next t.advance := by
  simp [exec, execDeallocate, h, Except.map]

theorem exec_deallocate_error (c : Reg) {s : State} {k : FailKind} (h : s.dealloc (s.reg c) = .error k) :
    exec (.deallocate c) s = .next (s.raise k) := by
  simp [exec, execDeallocate, h, Except.map]

theorem exec_halt (s : State) : exec .halt s = .next s.halt := rfl

theorem exec_output (c : Reg) (s : State) :
    exec (.output c) s
      = .next (if 255 < (s.reg c).toNat then s.raise .outputRangeError
        else (s.outWrite ((s.reg c).setWidth 8)).advance) := by
  by_cases h : 255 < (s.reg c).toNat <;> simp [exec, execOutput, exceedsByte, lowByte, h]

theorem exec_input_answer (c : Reg) {s : State} {ans : InputAnswer} {rest : List InputAnswer}
    (h : s.inAnswers = ans :: rest) :
    exec (.input c) s
      = .next (({ s with inAnswers := rest, waitIn := false } : State).setReg c (inputWord ans)).advance := by
  simp [exec, execInput, State.inRead, h]

theorem exec_input_wait (c : Reg) {s : State} (h : s.inAnswers = []) : exec (.input c) s = .next s.awaitInput := by
  simp [exec, execInput, State.inRead, h]

theorem exec_loadProgram_ok (b c : Reg) {s t : State} (h : s.dup0 (s.reg b) = .ok t) :
    exec (.loadProgram b c) s = .next (t.jump (s.reg c)) := by
  simp [exec, execLoadProgram, h, Except.map]

theorem exec_loadProgram_error (b c : Reg) {s : State} {k : FailKind} (h : s.dup0 (s.reg b) = .error k) :
    exec (.loadProgram b c) s = .next (s.raise k) := by
  simp [exec, execLoadProgram, h, Except.map]

theorem exec_illegal14 (s : State) : exec .illegal14 s = .next (s.raise .illegalOpcode) := rfl

theorem exec_illegal15 (s : State) : exec .illegal15 s = .next (s.raise .illegalOpcode) := rfl

/-! The ways an instruction can end -/

/-- Every way the execution of an instruction ends: failure entry with one of its own kinds; a register write (or
none) and pc + 1; a store operation; OUTPUT; INPUT's answer or wait; HALT; LOAD_PROGRAM. -/
inductive Ends (i : Instr) (s : State) : State → Prop where
  | fails (k : FailKind) (own : k ∈ ownFailures i) : Ends i s (s.raise k)
  | writesReg (a : Reg) (v : Word) (d : dest i = some a) (quiet : changesStore i = false)
      (notInput : ∀ c, i ≠ .input c) (notJump : ∀ b c, i ≠ .loadProgram b c) (notHalt : i ≠ .halt) :
      Ends i s (s.setReg a v).advance
  | writesWord (a b c : Reg) (arr : Arr) (e : i = .arrayUpdate a b c) (bound : s.array (s.reg a) = some arr)
      (lt : (s.reg b).toNat < arr.len) :
      Ends i s (({ s with
        arrays := Assoc.insert (s.reg a).toNat (arr.write (s.reg b).toNat (s.reg c)) s.arrays } : State).advance)
  | allocates (b c : Reg) (g : Word) (t : State) (e : i = .allocate b c) (r : s.alloc (s.reg c) = .ok (g, t)) :
      Ends i s (t.setReg b g).advance
  | frees (c : Reg) (e : i = .deallocate c) (nz : s.reg c ≠ 0#32) (act : s.active (s.reg c) = true) :
      Ends i s (({ s with arrays := Assoc.erase (s.reg c).toNat s.arrays, free := s.reg c :: s.free } : State).advance)
  | emits (c : Reg) (e : i = .output c) (le : (s.reg c).toNat ≤ 255) :
      Ends i s (s.outWrite ((s.reg c).setWidth 8)).advance
  | answered (c : Reg) (ans : InputAnswer) (rest : List InputAnswer) (e : i = .input c)
      (q : s.inAnswers = ans :: rest) :
      Ends i s (({ s with inAnswers := rest, waitIn := false } : State).setReg c (inputWord ans)).advance
  | waits (c : Reg) (e : i = .input c) (q : s.inAnswers = []) : Ends i s s.awaitInput
  | halts (e : i = .halt) : Ends i s s.halt
  | jumps (b c : Reg) (e : i = .loadProgram b c) (z : s.reg b = 0#32) : Ends i s (s.jump (s.reg c))
  | loads (b c : Reg) (arr : Arr) (e : i = .loadProgram b c) (nz : s.reg b ≠ 0#32)
      (bound : s.array (s.reg b) = some arr)
      (room : s.fits (s.arrays.total - s.len 0#32 + arr.len) = true) :
      Ends i s (({ s with arrays := Assoc.insert 0 arr s.arrays } : State).jump (s.reg c))

/-- Every instruction ends, and in one of those ways. -/
theorem exec_ends (i : Instr) (s : State) : ∃ t, exec i s = .next t ∧ Ends i s t := by
  cases i with
  | condMove a b c =>
    refine ⟨_, exec_condMove a b c s, ?_⟩
    split
    · have := Ends.writesReg (i := .condMove a b c) (s := s) a (s.reg a) rfl rfl nofun nofun nofun
      rwa [State.setReg_self] at this
    · exact .writesReg a (s.reg b) rfl rfl nofun nofun nofun
  | arrayIndex a b c =>
    cases r : s.storeRead (s.reg b) (s.reg c) with
    | ok v => exact ⟨_, exec_arrayIndex_ok a b c r, .writesReg a v rfl rfl nofun nofun nofun⟩
    | error k =>
      exact ⟨_, exec_arrayIndex_error a b c r, .fails k (by simp [ownFailures, State.storeRead_error r])⟩
  | arrayUpdate a b c =>
    rcases s.storeWrite_cases (s.reg a) (s.reg b) (s.reg c) with ⟨arr, bound, lt, r⟩ | ⟨_, r⟩
    · exact ⟨_, exec_arrayUpdate_ok a b c r, .writesWord a b c arr rfl bound lt⟩
    · exact ⟨_, exec_arrayUpdate_error a b c r, .fails _ (by simp [ownFailures])⟩
  | add a b c => exact ⟨_, exec_add a b c s, .writesReg a _ rfl rfl nofun nofun nofun⟩
  | mul a b c => exact ⟨_, exec_mul a b c s, .writesReg a _ rfl rfl nofun nofun nofun⟩
  | div a b c =>
    refine ⟨_, exec_div a b c s, ?_⟩
    split
    · exact .fails _ (by simp [ownFailures])
    · exact .writesReg a _ rfl rfl nofun nofun nofun
  | nand a b c => exact ⟨_, exec_nand a b c s, .writesReg a _ rfl rfl nofun nofun nofun⟩
  | halt => exact ⟨_, exec_halt s, .halts rfl⟩
  | allocate b c =>
    cases r : s.alloc (s.reg c) with
    | ok p => exact ⟨_, exec_allocate_ok b c r, .allocates b c p.1 p.2 rfl r⟩
    | error k =>
      refine ⟨_, exec_allocate_error b c r, .fails k ?_⟩
      rcases s.alloc_cases (s.reg c) with ⟨_, e⟩ | ⟨_, _, _, _, e⟩ | ⟨_, _, _, e⟩ <;> rw [e] at r <;> cases r
      simp [ownFailures]
  | deallocate c =>
    rcases s.dealloc_cases (s.reg c) with ⟨_, r⟩ | ⟨nz, act, r⟩
    · exact ⟨_, exec_deallocate_error c r, .fails _ (by simp [ownFailures])⟩
    · exact ⟨_, exec_deallocate_ok c r, .frees c rfl nz act⟩
  | output c =>
    refine ⟨_, exec_output c s, ?_⟩
    split
    · exact .fails _ (by simp [ownFailures])
    · exact .emits c rfl (by omega)
  | input c =>
    rcases s.inRead_cases with ⟨q, _⟩ | ⟨ans, rest, q, _⟩
    · exact ⟨_, exec_input_wait c q, .waits c rfl q⟩
    · exact ⟨_, exec_input_answer c q, .answered c ans rest rfl q⟩
  | loadProgram b c =>
    rcases s.dup0_cases (s.reg b) with ⟨z, r⟩ | ⟨_, _, r⟩ | ⟨_, _, _, _, r⟩ | ⟨arr, nz, bound, room, r⟩
    · exact ⟨_, exec_loadProgram_ok b c r, .jumps b c rfl z⟩
    · exact ⟨_, exec_loadProgram_error b c r, .fails _ (by simp [ownFailures])⟩
    · exact ⟨_, exec_loadProgram_error b c r, .fails _ (by simp [ownFailures])⟩
    · exact ⟨_, exec_loadProgram_ok b c r, .loads b c arr rfl nz bound room⟩
  | loadImmediate a imm => exact ⟨_, exec_loadImmediate a imm s, .writesReg a imm rfl rfl nofun nofun nofun⟩
  | illegal14 => exact ⟨_, exec_illegal14 s, .fails _ (by simp [ownFailures])⟩
  | illegal15 => exact ⟨_, exec_illegal15 s, .fails _ (by simp [ownFailures])⟩

/-- Where execution answers `t`, `t` is one of those ends. -/
theorem ends_of_exec {i : Instr} {s t : State} (h : exec i s = .next t) : Ends i s t := by
  obtain ⟨u, e, ends⟩ := exec_ends i s
  rw [e] at h; cases h
  exact ends

/-- Every way a step can go: the state of the end of a run stays; the fetch fails; the fetched word runs. -/
theorem step_cases {s t : State} (h : step s = .next t) :
    (s.status ≠ .running ∧ t = s)
    ∨ (s.status = .running ∧ s.fetch = .error .invalidArrayAccess ∧ t = s.raise .invalidArrayAccess)
    ∨ (∃ w, s.status = .running ∧ s.fetch = .ok w ∧ Ends (decode w) s t) := by
  unfold step at h
  cases r : s.status with
  | running =>
    cases f : s.fetch with
    | ok w => exact .inr (.inr ⟨w, rfl, rfl, ends_of_exec (by simpa [r, f] using h)⟩)
    | error k =>
      have : k = .invalidArrayAccess := State.storeRead_error f
      subst this
      exact .inr (.inl ⟨rfl, rfl, by simpa [r, f] using h.symm⟩)
  | halted => exact .inl ⟨nofun, by simpa [r] using h.symm⟩
  | failed => exact .inl ⟨nofun, by simpa [r] using h.symm⟩

end Sys2Proof.Machine
end

