-- ==== Sys2Proof/Laws/PerInstr.lean ====
section
/-! SUPPORT. Statements made per instruction. The family OpcodeNibble: an instruction's canonical encoding carries
its opcode number in bits 31:28 (30_encoding.md R76, R80). -/

namespace Sys2Proof.Laws.OpcodeNibble

open Sys2Proof

/-- The encoding of a well-formed instruction has the instruction's opcode in its opcode field. -/
def Statement (i : Instr) : Prop := i.wellFormed = true → opcodeField (encode i) = i.opcode

theorem condMove (a b c : Reg) : Statement (.condMove a b c) := fun _ => opcodeField_encS ..
theorem arrayIndex (a b c : Reg) : Statement (.arrayIndex a b c) := fun _ => opcodeField_encS ..
theorem arrayUpdate (a b c : Reg) : Statement (.arrayUpdate a b c) := fun _ => opcodeField_encS ..
theorem add (a b c : Reg) : Statement (.add a b c) := fun _ => opcodeField_encS ..
theorem mul (a b c : Reg) : Statement (.mul a b c) := fun _ => opcodeField_encS ..
theorem div (a b c : Reg) : Statement (.div a b c) := fun _ => opcodeField_encS ..
theorem nand (a b c : Reg) : Statement (.nand a b c) := fun _ => opcodeField_encS ..
theorem halt : Statement .halt := fun _ => opcodeField_encS ..
theorem allocate (b c : Reg) : Statement (.allocate b c) := fun _ => opcodeField_encS ..
theorem deallocate (c : Reg) : Statement (.deallocate c) := fun _ => opcodeField_encS ..
theorem output (c : Reg) : Statement (.output c) := fun _ => opcodeField_encS ..
theorem input (c : Reg) : Statement (.input c) := fun _ => opcodeField_encS ..
theorem loadProgram (b c : Reg) : Statement (.loadProgram b c) := fun _ => opcodeField_encS ..
theorem loadImmediate (a : Reg) (imm : Word) : Statement (.loadImmediate a imm) := fun h =>
  opcodeField_encI a imm (of_decide_eq_true h)
theorem illegal14 : Statement .illegal14 := fun _ => opcodeField_encS ..
theorem illegal15 : Statement .illegal15 := fun _ => opcodeField_encS ..

end Sys2Proof.Laws.OpcodeNibble
end

