-- ==== Sys2Proof/Tests/Slice0.lean ====
section
/-! SUPPORT. The model's own tests. Expected results are those of 95_test_vectors.md (named in each comment) or are
read off the spec's encodings; a `witness_` theorem shows that the hypotheses of the statement it is named after can
be met. -/

namespace Sys2Proof.Tests

open Sys2Proof Sys2Proof.Machine

/-! Small states -/

/-- Reset with the parameter MAX_TOTAL_WORDS = ∞, as 95_test_vectors.md takes it. -/
def fresh : State := { State.reset with maxTotalWords := none }

/-- A fresh machine whose slot 0 holds these words. -/
def prog (ws : List Word) : State := { fresh with arrays := [(0, Arr.ofWords ws)] }

/-- The same with x1, x2 and x3 set. -/
def regs (s : State) (x1 x2 x3 : Word) : State := ((s.setReg 1 x1).setReg 2 x2).setReg 3 x3

/-- The same with one more array, and NEXT past it. -/
def withArray (s : State) (h : Nat) (ws : List Word) : State :=
  { s with arrays := Assoc.insert h (Arr.ofWords ws) s.arrays, nextHandle := h + 1 }

/-- The next state, if there is one. -/
def after (o : Host.Outcome State Fault Refusal) : Option State :=
  match o with
  | .next t => some t
  | .fault _ => none
  | .refused _ => none

/-- What is left of a failure: STATE, FAIL_KIND, FAIL_PC, pc and OUT. -/
def report (s : State) : RunState × FailKind × Word × Word × List Byte :=
  (s.status, s.failKind, s.failPc, s.pc, s.out)

/-! WellFormed: the one check, at the boundary -/

theorem test_wellFormed_accepts_largest_immediate : (Instr.loadImmediate 7 0x01FFFFFF#32).wellFormed = true := by
  decide

theorem test_wellFormed_refuses_26_bit_immediate : (Instr.loadImmediate 0 0x02000000#32).wellFormed = false := by
  decide

/-! Decoding: words written out bit by bit from the formats of R71 and R72 (opcode, ignored, A, B, C) -/

theorem test_decode_condMove : decode 0b0000_0000000000000000000_110_101_001#32 = .condMove 6 5 1 := by decide
theorem test_decode_arrayIndex : decode 0b0001_0000000000000000000_001_010_011#32 = .arrayIndex 1 2 3 := by decide
theorem test_decode_arrayUpdate : decode 0b0010_0000000000000000000_010_111_110#32 = .arrayUpdate 2 7 6 := by decide
/-- D-2: bits 27:9 are ignored. -/
theorem test_decode_add : decode 0b0011_1111111111111111111_001_010_011#32 = .add 1 2 3 := by decide
theorem test_decode_mul : decode 0b0100_0000000000000000000_011_011_100#32 = .mul 3 3 4 := by decide
theorem test_decode_div : decode 0b0101_0000000000000000000_010_001_000#32 = .div 2 1 0 := by decide
theorem test_decode_nand : decode 0b0110_0000000000000000000_100_000_000#32 = .nand 4 0 0 := by decide
/-- D-7: HALT ignores every field. -/
theorem test_decode_halt : decode 0b0111_1111111111111111111_111_111_111#32 = .halt := by decide
theorem test_decode_allocate : decode 0b1000_0000000000000000000_111_010_011#32 = .allocate 2 3 := by decide
theorem test_decode_deallocate : decode 0b1001_0000000000000000000_111_111_001#32 = .deallocate 1 := by decide
theorem test_decode_output : decode 0b1010_0000000000000000000_111_111_101#32 = .output 5 := by decide
theorem test_decode_input : decode 0b1011_0000000000000000000_000_000_001#32 = .input 1 := by decide
/-- D-10 with the ignored A field set. -/
theorem test_decode_loadProgram : decode 0b1100_0000000000000000000_111_010_000#32 = .loadProgram 2 0 := by decide
/-- D-5: bits 8:6 belong to the immediate; the destination is bits 27:25. -/
theorem test_decode_loadImmediate : decode 0b1101_010_0000000000000000111000000#32 = .loadImmediate 2 0x1C0#32 := by
  decide
theorem test_decode_illegal14 : decode 0b1110_0000000000000000000_000_000_000#32 = .illegal14 := by decide
/-- D-9. -/
theorem test_decode_illegal15 : decode 0b1111_0000000000000000000_111_111_111#32 = .illegal15 := by decide
/-- D-4. -/
theorem test_decode_largest_immediate :
    decodeFields 0xDFFFFFFF#32 = { op := 13#4, a := 7, b := 0, c := 0, imm := 0x01FFFFFF#32 } := by decide

/-- R82's encodings of three lines of 95_test_vectors.md. -/
theorem test_encode_listing :
    encode (.nand 4 0 0) = 0x60000100#32 ∧ encode (.allocate 2 1) = 0x80000011#32
      ∧ encode (.loadImmediate 6 10#32) = 0xDC00000A#32 := by decide

/-- The host's two checks: the word decodes, and the step after reset runs it. -/
theorem test_tableWord_decodes : decodeTableWord 32 0x30000053 = some (.add 1 2 3) := by decide

theorem test_fetchWord_runs :
    step (State.reset.withFetchWord 32 0x30000053) = exec (.add 1 2 3) (State.reset.withFetchWord 32 0x30000053) := rfl

/-- The opcode nibbles of a table word shorter than the instruction are 0. -/
theorem test_tableWord_is_one_word : decodeTableWord 33 0 = none ∧ decodeTableWord 8 0x153 = some (.condMove 1 2 3) := by
  decide

/-! Fetch, dispatch and pc -/

/-- F-1. -/
theorem test_fetch_empty_program :
    (after (step fresh)).map report = some (.failed, .invalidArrayAccess, 0#32, 0#32, []) := by decide

/-- C-12: the failure of the fetch is recorded with the target as its offset. -/
theorem test_fetch_beyond_program :
    (after (step { prog [0xC0000001#32] with pc := 100#32 })).map report
      = some (.failed, .invalidArrayAccess, 100#32, 100#32, []) := by decide

/-- F-3. -/
theorem test_illegal14 :
    (after (step (prog [0xE0000000#32]))).map report = some (.failed, .illegalOpcode, 0#32, 0#32, []) := by decide

theorem test_illegal15 :
    (after (step { prog [0#32, 0xF00001FF#32] with pc := 1#32 })).map report
      = some (.failed, .illegalOpcode, 1#32, 1#32, []) := by decide

/-- R20: FAILED with DivisionByZero reads 0x22; a waiting machine reads 0x4. -/
theorem test_status_word :
    (fresh.raise .divisionByZero).statusWord = 0x22#32 ∧ fresh.awaitInput.statusWord = 0x4#32
      ∧ fresh.halt.statusWord = 0x1#32 := by decide

/-! ALU -/

/-- A-3. -/
theorem test_condMove_high_bit_is_true :
    (after (exec (.condMove 1 2 3) (regs fresh 5 9 0x80000000))).map (·.reg 1) = some 9#32 := by decide

/-- A-1. -/
theorem test_condMove_zero_keeps :
    (after (exec (.condMove 1 2 3) (regs fresh 5 9 0))).map (fun t => (t.reg 1, t.pc)) = some (5#32, 1#32) := by decide

/-- A-5. -/
theorem test_add_wraps :
    (after (exec (.add 1 2 3) (regs fresh 0 0xFFFFFFFF 2))).map (fun t => (t.reg 1, t.pc)) = some (1#32, 1#32) := by
  decide

/-- A-10. -/
theorem test_mul_low_word :
    (after (exec (.mul 1 2 3) (regs fresh 0 0x12345678 0x10))).map (·.reg 1) = some 0x23456780#32 := by decide

/-- A-9. -/
theorem test_mul_wraps :
    (after (exec (.mul 1 2 3) (regs fresh 0 0xFFFFFFFF 0xFFFFFFFF))).map (·.reg 1) = some 1#32 := by decide

/-- A-16: unsigned. -/
theorem test_div_unsigned :
    (after (exec (.div 1 2 3) (regs fresh 0 0x80000000 2))).map (·.reg 1) = some 0x40000000#32 := by decide

/-- A-17. -/
theorem test_div_by_zero :
    (after (exec (.div 1 2 3) (regs fresh 0xAA 1 0))).map (fun t => (t.reg 1, t.status, t.failKind, t.pc))
      = some (0xAA#32, .failed, .divisionByZero, 0#32) := by decide

/-- A-21. -/
theorem test_nand_bits :
    (after (exec (.nand 1 2 3) (regs fresh 0 0xF0F0F0F0 0xFF00FF00))).map (·.reg 1) = some 0x0FFF0FFF#32 := by decide

/-- A-23: no sign extension. -/
theorem test_loadImmediate_no_sign :
    (after (step (prog [0xDFFFFFFF#32]))).map (·.reg 7) = some 0x01FFFFFF#32 := by decide

/-! Array store -/

/-- M-9. -/
theorem test_arrayIndex_reads :
    (after (exec (.arrayIndex 1 2 3) (regs (withArray fresh 1 [7, 8, 9]) 0 1 2))).map (·.reg 1) = some 9#32 := by decide

/-- M-10. -/
theorem test_arrayIndex_bound :
    (after (exec (.arrayIndex 1 2 3) (regs (withArray fresh 1 [7, 8, 9]) 5 1 3))).map (fun t => (t.reg 1, t.failKind))
      = some (5#32, .invalidArrayAccess) := by decide

/-- M-13. -/
theorem test_arrayUpdate_writes :
    (after (exec (.arrayUpdate 1 2 3) (regs (withArray fresh 1 [0]) 1 0 0x2A))).map (fun t => (t.array 1).map Arr.toWords)
      = some (some [0x2A#32]) := by decide

/-- M-16: the next step runs the word just stored. -/
theorem test_arrayUpdate_seen_by_fetch :
    ((after (step (regs (prog [0x20000053#32, 0xE0000000#32]) 0 1 0x70000000))).bind fun t => after (step t)).map report
      = some (.halted, .noFailure, 0#32, 1#32, []) := by decide

/-- M-1. -/
theorem test_allocate_mints :
    (after (exec (.allocate 2 3) (regs fresh 0 0 3))).map (fun t => (t.reg 2, (t.array 1).map Arr.toWords, t.nextHandle))
      = some (1#32, some [0#32, 0#32, 0#32], 2) := by decide

/-- M-4 and M-5: the handle freed last comes back first. -/
theorem test_allocate_lifo :
    (after (exec (.allocate 2 3) { regs fresh 0 0 5 with free := [2#32, 1#32], nextHandle := 3 })).map
        (fun t => (t.reg 2, t.len 2, t.free, t.nextHandle))
      = some (2#32, 5, [1#32], 3) := by decide

/-- M-3. -/
theorem test_deallocate_pushes :
    (after (exec (.deallocate 1) (regs (withArray fresh 1 [7]) 1 0 0))).map (fun t => (t.active 1, t.free))
      = some (false, [1#32]) := by decide

/-- M-6: handle 0 is never freed. -/
theorem test_deallocate_zero :
    (after (exec (.deallocate 1) (regs fresh 0 0 0))).map (fun t => (t.active 0, t.failKind))
      = some (true, .invalidDeallocation) := by decide

/-! Control and I/O -/

/-- C-14. -/
theorem test_halt_keeps_pc :
    (after (step (prog [0x70000000#32]))).map report = some (.halted, .noFailure, 0#32, 0#32, []) := by decide

/-- C-2. -/
theorem test_output_largest_byte :
    (after (exec (.output 1) { regs fresh 255 0 0 with out := [0x48#8] })).map (fun t => (t.out, t.pc))
      = some ([0x48#8, 0xFF#8], 1#32) := by decide

/-- C-3. -/
theorem test_output_range :
    (after (exec (.output 1) (regs fresh 256 0 0))).map report
      = some (.failed, .outputRangeError, 0#32, 0#32, []) := by decide

/-- C-6: the byte 0xFF is not end-of-input. -/
theorem test_input_byte :
    (after (exec (.input 1) { fresh with waitIn := true, inAnswers := [.byte 0xFF#8, .eof] })).map
        (fun t => (t.reg 1, t.waitIn, t.inAnswers, t.pc))
      = some (0xFF#32, false, [.eof], 1#32) := by decide

/-- C-7. -/
theorem test_input_eof :
    (after (exec (.input 1) { fresh with inAnswers := [.eof] })).map (fun t => (t.reg 1, t.status))
      = some (0xFFFFFFFF#32, .running) := by decide

/-- C-10. -/
theorem test_loadProgram_copies :
    (after (exec (.loadProgram 2 0) (regs (withArray (prog [1, 2]) 1 [0x70000000]) 0 1 0))).map
        (fun t => ((t.array 0).map Arr.toWords, (t.array 1).map Arr.toWords, t.pc))
      = some (some [0x70000000#32], some [0x70000000#32], 0#32) := by decide

/-- C-9. -/
theorem test_loadProgram_jumps :
    (after (exec (.loadProgram 0 1) { regs (prog [0, 0, 0xC0000006]) 5 0 0 with pc := 2 })).map
        (fun t => (t.pc, t.len 0))
      = some (5#32, 3) := by decide

/-! Reset and loader -/

/-- L-1. -/
theorem test_reset_big_endian :
    ((fresh.hostReset (some [0xD0, 0x00, 0x00, 0x48, 0xA0, 0x00, 0x00, 0x00])).array 0).map Arr.toWords
      = some [0xD0000048#32, 0xA0000000#32] := by decide

/-- L-2. -/
theorem test_reset_rejects :
    report (fresh.hostReset (some [0xD0, 0x00, 0x00])) = (.failed, .programLoadError, 0#32, 0#32, []) := by decide

/-- `State.reset` is the reset with the empty image (L-3). -/
theorem test_reset_is_empty_image : State.reset.hostReset (some []) = State.reset := by
  have room : State.reset.fits 0 = true := by unfold State.fits; split <;> simp
  have ok : State.reset.acceptImage (some []) = .ok [] := by
    unfold State.acceptImage
    simp [imageWords, room]
  unfold State.hostReset
  rw [ok]
  rfl

/-- An image of one word where the store holds none: code 7 (92_eei_decisions.md D7). -/
theorem test_reset_over_capacity :
    report (({ fresh with maxTotalWords := some 0 } : State).hostReset (some [0x70, 0, 0, 0]))
      = (.failed, .resourceExhausted, 0#32, 0#32, []) := by decide

/-! States that meet the invariant -/

/-- A fresh machine with a program, which may be at an INPUT and wait. -/
theorem inv_of_program (s : State) (a : Arr) (ha : s.arrays = [(0, a)]) (wf : a.wf) (hf : s.free = [])
    (hn : s.nextHandle = 1) (cap : s.maxTotalWords = none) (kind : s.failKind = .noFailure) (pc : s.failPc = 0#32)
    (run : s.status = .running) (wait : s.waitIn = true → ∃ w c, s.fetch = .ok w ∧ decode w = .input c) : s.Inv := by
  have h0 : s.array 0#32 = some a := by simp [State.array, ha, Assoc.find]
  have other : ∀ h, s.active h = true → h = 0#32 := by
    intro h act
    by_cases z : h = 0#32
    · exact z
    · have : ¬ 0 = h.toNat := fun c => z (BitVec.eq_of_toNat_eq c.symm)
      simp [State.active, State.array, ha, Assoc.find, this] at act
  exact {
    store := by rw [ha]; exact ⟨by simp, fun e he => by simp at he; exact he ▸ ⟨Nat.two_pow_pos 32, wf⟩⟩
    slot0 := State.active_some h0
    pool := ⟨by simp [hf], by simp [hf], by simp [hf], by simp [hf]⟩
    mint := ⟨by omega, by omega, fun h act => .inl (other h act), fun h nz lt =>
      absurd (BitVec.eq_of_toNat_eq (by simp; omega)) nz⟩
    room := by simp [State.fits, cap]
    report := ⟨fun _ => ⟨kind, pc⟩, fun f => by rw [run] at f; cases f⟩
    wait := fun w => ⟨run, wait w⟩ }

theorem inv_prog (ws : List Word) (h : ws.length < 2 ^ 32) : (prog ws).Inv :=
  inv_of_program _ _ rfl (Arr.wf_ofWords h) rfl rfl rfl rfl rfl rfl nofun

/-- A machine that waits at an INPUT, with these answers known. -/
def waiting (q : List InputAnswer) : State := { prog [0xB0000001#32] with waitIn := true, inAnswers := q }

theorem inv_waiting (q : List InputAnswer) : (waiting q).Inv :=
  inv_of_program _ _ rfl (Arr.wf_ofWords (by decide)) rfl rfl rfl rfl rfl rfl
    fun _ => ⟨0xB0000001#32, 1, rfl, by decide⟩

/-- The first `n` handles active, each with an empty array. -/
def handles (n : Nat) : Memory := (List.range n).map fun k => (k, Arr.zeros 0)

theorem mem_handles {n : Nat} {e : Nat × Arr} (h : e ∈ handles n) : e.1 < n ∧ e.2 = Arr.zeros 0 := by
  simp only [handles, List.mem_map, List.mem_range] at h
  obtain ⟨k, lt, rfl⟩ := h
  exact ⟨lt, rfl⟩

theorem sorted_handles (n : Nat) : Assoc.Sorted (handles n) :=
  List.pairwise_map.2 (List.pairwise_lt_range.imp fun h => h)

/-- The fresh machine with every handle below `n` active and minted. -/
def crowded (n : Nat) : State := { fresh with arrays := handles n, nextHandle := n }

theorem inv_crowded (n : Nat) (low : 1 ≤ n) (high : n ≤ 2 ^ 32) : (crowded n).Inv := by
  have act : ∀ h : Word, h.toNat < n → (crowded n).active h = true := fun h lt =>
    State.active_some (a := Arr.zeros 0)
      (Assoc.find_of_mem (sorted_handles n) (List.mem_map.2 ⟨h.toNat, List.mem_range.2 lt, rfl⟩))
  exact {
    store := ⟨sorted_handles n, fun e he => ⟨by have := (mem_handles he).1; omega,
      (mem_handles he).2 ▸ Arr.wf_zeros (by decide)⟩⟩
    slot0 := act 0#32 low
    pool := ⟨List.nodup_nil, nofun, nofun, nofun⟩
    mint := ⟨low, high, fun h a => by
      obtain ⟨arr, e⟩ := State.active_iff.1 a
      exact .inr (mem_handles (Assoc.mem_of_find e)).1, fun h _ lt => .inl (act h lt)⟩
    room := rfl
    report := ⟨fun _ => ⟨rfl, rfl⟩, nofun⟩
    wait := nofun }

/-! Witnesses: a concrete state and operands that meet the hypotheses of each statement that has any, one for each
clause, at a boundary of its range where it has one. -/

theorem witness_OpcodeMapSelectsTheInstruction :
    0x0FFFFFFF#32 &&& 0xF0000000#32 = 0x00000000#32 ∧ 0xFFFFFFFF#32 &&& 0xF0000000#32 = 0xF0000000#32
      ∧ (List.range 16).all (fun k =>
        BitVec.ofNat 32 (k * 2 ^ 28 + 0x1FF) &&& 0xF0000000#32 == BitVec.ofNat 32 (k * 2 ^ 28)) = true := by decide

theorem witness_DecodeExtractsTheBitFields :
    (0xD0000000#32).toNat / 2 ^ 28 = 13 ∧ (0xCFFFFFFF#32).toNat / 2 ^ 28 ≠ 13 ∧ (0xE0000000#32).toNat / 2 ^ 28 ≠ 13 := by
  decide

theorem witness_DecodeOfEncodeIsTheInstruction : (Instr.loadImmediate 7 0x01FFFFFF#32).wellFormed = true := by decide

theorem witness_StepRunsTheDecodedInstruction :
    (prog [0x30000053#32]).status = .running ∧ (prog [0x30000053#32]).storeRead 0#32 (prog [0x30000053#32]).pc
      = .ok 0x30000053#32 := ⟨rfl, rfl⟩

/-- The last word of slot 0, and the offset just past it. -/
theorem witness_FetchOutsideSlotZeroFails :
    ((prog [0, 1]).status = .running ∧ (prog [0, 1]).active 0#32 = true
        ∧ ({ prog [0, 1] with pc := 1#32 } : State).pc.toNat < ({ prog [0, 1] with pc := 1#32 } : State).len 0#32)
      ∧ ({ prog [0, 1] with pc := 2#32 } : State).len 0#32 ≤ ({ prog [0, 1] with pc := 2#32 } : State).pc.toNat := by
  decide

theorem witness_IllegalOpcodesRaiseIllegalOpcode :
    (prog [0xE0000000#32]).status = .running
      ∧ (prog [0xE0000000#32]).storeRead 0#32 (prog [0xE0000000#32]).pc = .ok 0xE0000000#32
      ∧ 14 ≤ (0xE0000000#32).toNat / 2 ^ 28 := ⟨rfl, rfl, by decide⟩

theorem witness_TerminalStatesAreAbsorbing : fresh.halt.terminal ∧ (fresh.raise .illegalOpcode).terminal :=
  ⟨.inl rfl, .inr rfl⟩

theorem witness_FailingStepChangesOnlyTheReport :
    fresh.status = .running ∧ step fresh = .next (fresh.raise .invalidArrayAccess)
      ∧ (fresh.raise .invalidArrayAccess).status = .failed := ⟨rfl, rfl, rfl⟩

theorem witness_InstructionsFailOnlyWithTheirOwnKinds :
    fresh.status = .running ∧ exec (.div 0 0 0) fresh = .next (fresh.raise .divisionByZero)
      ∧ (fresh.raise .divisionByZero).status = .failed := ⟨rfl, rfl, rfl⟩

/-- HALT, LOAD_PROGRAM, an ordinary instruction, and an INPUT that has its answer. -/
theorem witness_PcUpdateOfCompletedInstructions :
    fresh.status = .running
      ∧ (exec .halt fresh = .next fresh.halt ∧ fresh.halt.status ≠ .failed)
      ∧ (exec (.loadProgram 0 1) fresh = .next (fresh.jump 0#32) ∧ (fresh.jump 0#32).status ≠ .failed)
      ∧ (exec (.add 0 0 0) fresh = .next (fresh.setReg 0 0#32).advance
        ∧ (fresh.setReg 0 0#32).advance.status ≠ .failed ∧ Instr.add 0 0 0 ≠ .halt
        ∧ (∀ b c, Instr.add 0 0 0 ≠ .loadProgram b c) ∧ ((∃ c, Instr.add 0 0 0 = .input c) → fresh.inAnswers ≠ []))
      ∧ (exec (.input 0) (waiting [.eof])
          = .next (({ waiting [] with waitIn := false } : State).setReg 0 0xFFFFFFFF#32).advance
        ∧ (({ waiting [] with waitIn := false } : State).setReg 0 0xFFFFFFFF#32).advance.status ≠ .failed
        ∧ (waiting [.eof]).inAnswers ≠ []) :=
  ⟨rfl, ⟨rfl, nofun⟩, ⟨rfl, nofun⟩, ⟨rfl, nofun, nofun, nofun, nofun⟩, ⟨rfl, nofun, nofun⟩⟩

theorem witness_CondMoveMovesWhenConditionNonzero :
    (regs fresh 0 0 1).reg 3 ≠ 0#32 ∧ (regs fresh 0 0 0).reg 3 = 0#32 := by decide

theorem witness_DivIsUnsignedFloorOrFails :
    (regs fresh 0 7 1).reg 3 ≠ 0#32 ∧ (regs fresh 0 7 0).reg 3 = 0#32 := by decide

theorem witness_LoadImmediateZeroExtends : 0xDFFFFFFF#32 &&& 0xF0000000#32 = 0xD0000000#32 := by decide

/-- The last offset of an array, the offset past it, and an inactive handle. -/
theorem witness_ArrayIndexReadsOrFails :
    ((regs (withArray fresh 1 [7, 8, 9]) 0 1 2).active 1#32 = true
        ∧ (2#32).toNat < (regs (withArray fresh 1 [7, 8, 9]) 0 1 2).len 1#32)
      ∧ (regs (withArray fresh 1 [7, 8, 9]) 0 1 3).len 1#32 ≤ (3#32).toNat
      ∧ (regs fresh 0 1 0).active 1#32 = false := by decide

theorem witness_ArrayUpdateWritesOneWordOrFails :
    ((regs (withArray fresh 1 [7]) 1 0 0x2A).active ((regs (withArray fresh 1 [7]) 1 0 0x2A).reg 1) = true
        ∧ ((regs (withArray fresh 1 [7]) 1 0 0x2A).reg 2).toNat < (regs (withArray fresh 1 [7]) 1 0 0x2A).len 1#32)
      ∧ (regs (withArray fresh 1 [7]) 1 1 0).len 1#32 ≤ ((regs (withArray fresh 1 [7]) 1 1 0).reg 2).toNat
      ∧ (regs fresh 2 0 0).active ((regs fresh 2 0 0).reg 1) = false := by decide

theorem witness_AllocateReusesMostRecentlyFreed :
    ({ fresh with free := [2#32, 1#32] } : State).free = 2#32 :: [1#32]
      ∧ ({ regs fresh 0 0 5 with maxTotalWords := some 5 } : State).fits
        (fresh.arrays.total + ((regs fresh 0 0 5).reg 3).toNat) = true := by decide

/-- The last handle that can be minted. -/
theorem witness_AllocateMintsNextHandle :
    ({ fresh with nextHandle := 2 ^ 32 - 1 } : State).free = []
      ∧ ({ fresh with nextHandle := 2 ^ 32 - 1 } : State).nextHandle < 2 ^ 32
      ∧ fresh.fits (fresh.arrays.total + (0xFFFFFFFF#32).toNat) = true := by decide

theorem witness_AllocateFailsWhenExhausted :
    (({ fresh with nextHandle := 2 ^ 32 } : State).free = []
        ∧ ({ fresh with nextHandle := 2 ^ 32 } : State).nextHandle = 2 ^ 32)
      ∧ ({ regs fresh 0 0 5 with maxTotalWords := some 4 } : State).fits
        (fresh.arrays.total + ((regs fresh 0 0 5).reg 3).toNat) = false := by decide

/-- An active nonzero handle, handle 0, and an inactive handle. -/
theorem witness_DeallocateFreesOrFails :
    ((regs (withArray fresh 1 []) 1 0 0).reg 1 ≠ 0#32
        ∧ (regs (withArray fresh 1 []) 1 0 0).active ((regs (withArray fresh 1 []) 1 0 0).reg 1) = true)
      ∧ (regs fresh 0 0 0).reg 1 = 0#32
      ∧ (regs fresh 1 0 0).active ((regs fresh 1 0 0).reg 1) = false := by decide

theorem witness_FreedHandleIsDeadUntilReused :
    ∃ t, (withArray fresh 1 [7]).dealloc 1#32 = .ok t ∧ t.fits (t.arrays.total + (3#32).toNat) = true :=
  ⟨_, rfl, by decide⟩

theorem witness_ArraysNeverAlias :
    (∃ t, (withArray fresh 1 [7]).storeWrite 1#32 0#32 5#32 = .ok t)
      ∧ ∃ t, 1#32 ≠ 0#32 ∧ (withArray fresh 1 [7]).dup0 1#32 = .ok t
        ∧ (∃ u, t.storeWrite 1#32 0#32 5#32 = .ok u) ∧ ∃ u, t.storeWrite 0#32 0#32 5#32 = .ok u :=
  ⟨⟨_, rfl⟩, _, by decide, rfl, ⟨_, rfl⟩, ⟨_, rfl⟩⟩

theorem witness_OutputAppendsOneByteOrFails :
    ((regs fresh 255 0 0).reg 1).toNat ≤ 255 ∧ 255 < ((regs fresh 256 0 0).reg 1).toNat := by decide

theorem witness_InputWritesByteOrAllOnes :
    (waiting [.byte 0xFF#8]).inAnswers = .byte 0xFF#8 :: [] ∧ (waiting [.eof, .eof]).inAnswers = .eof :: [.eof] :=
  ⟨rfl, rfl⟩

theorem witness_InputWithoutAnswerWaits : (waiting []).inAnswers = [] ∧ fresh.inAnswers = [] := ⟨rfl, rfl⟩

theorem witness_WaitEndsOnlyWithAnAnswer :
    ((waiting []).Inv ∧ (waiting []).waitIn = true ∧ step (waiting []) = .next (waiting []).awaitInput)
      ∧ ((waiting [.eof]).Inv ∧ (waiting [.eof]).waitIn = true ∧ ∃ t, step (waiting [.eof]) = .next t) :=
  ⟨⟨inv_waiting [], rfl, rfl⟩, inv_waiting [.eof], rfl, _, rfl⟩

theorem witness_LoadProgramOfZeroHandleJumps : (regs fresh 0 0 0xFFFFFFFF).reg 1 = 0#32 := by decide

/-- A copy that just fits: slot 0's old length is given back. -/
theorem witness_LoadProgramCopiesIntoSlotZero :
    (regs (withArray (prog [1, 2]) 1 [7]) 0 1 0).reg 2 ≠ 0#32
      ∧ (regs (withArray (prog [1, 2]) 1 [7]) 0 1 0).array 1#32 = some (Arr.ofWords [7])
      ∧ ({ withArray (prog [1, 2]) 1 [7] with maxTotalWords := some 2 } : State).fits
        ((withArray (prog [1, 2]) 1 [7]).arrays.total - (withArray (prog [1, 2]) 1 [7]).len 0#32
          + (Arr.ofWords [7]).len) = true := by decide

theorem witness_LoadProgramFailsInOrder :
    ((regs fresh 0 7 0).reg 2 ≠ 0#32 ∧ (regs fresh 0 7 0).active ((regs fresh 0 7 0).reg 2) = false)
      ∧ (regs (withArray (prog [1, 2]) 1 [7]) 0 1 0).array 1#32 = some (Arr.ofWords [7])
      ∧ ({ withArray (prog [1, 2]) 1 [7] with maxTotalWords := some 1 } : State).fits
        ((withArray (prog [1, 2]) 1 [7]).arrays.total - (withArray (prog [1, 2]) 1 [7]).len 0#32
          + (Arr.ofWords [7]).len) = false := by decide

/-- M-16's state. -/
theorem witness_StoreIntoProgramIsSeenByNextFetch :
    let s := regs (prog [0x20000053#32, 0xE0000000#32]) 0 1 0x70000000
    s.status = .running ∧ s.storeRead 0#32 s.pc = .ok 0x20000053#32 ∧ decode 0x20000053#32 = .arrayUpdate 1 2 3
      ∧ s.reg 1 = 0#32 ∧ s.reg 2 = s.pc + 1#32 ∧ (s.reg 2).toNat < s.len 0#32 :=
  ⟨rfl, rfl, by decide, by decide, by decide, by decide⟩

/-- C-10's state. -/
theorem witness_FetchAfterLoadProgramReadsNewProgram :
    let s := regs (withArray (prog [0xC0000010#32]) 1 [0x70000000]) 0 1 0
    s.status = .running ∧ s.storeRead 0#32 s.pc = .ok 0xC0000010#32 ∧ decode 0xC0000010#32 = .loadProgram 2 0
      ∧ s.reg 2 ≠ 0#32 ∧ ∃ t, step s = .next t ∧ t.status = .running :=
  ⟨rfl, rfl, by decide, by decide, _, rfl, rfl⟩

theorem witness_OnlyTheDestinationRegisterChanges :
    exec (.add 1 2 3) fresh = .next (fresh.setReg 1 0#32).advance ∧ dest (.add 1 2 3) ≠ some 2 := ⟨rfl, by decide⟩

theorem witness_OnlyStoreInstructionsChangeTheStore :
    exec (.add 1 2 3) fresh = .next (fresh.setReg 1 0#32).advance ∧ changesStore (.add 1 2 3) = false
      ∧ (∀ b c, Instr.add 1 2 3 ≠ .allocate b c) ∧ ∀ c, Instr.add 1 2 3 ≠ .deallocate c := ⟨rfl, rfl, nofun, nofun⟩

theorem witness_OutputTraceOnlyGrows : ∃ t, step (prog [0xA0000000#32]) = .next t ∧ t.out = [0#8] := ⟨_, rfl, rfl⟩

theorem witness_ProgramArrayStaysActive :
    (prog [0x70000000#32]).active 0#32 = true ∧ step (prog [0x70000000#32]) = .next (prog [0x70000000#32]).halt :=
  ⟨by decide, rfl⟩

theorem witness_NextHandleNeverDecreases : ∃ t, step (prog [0x80000013#32]) = .next t ∧ t.nextHandle = 2 := ⟨_, rfl, rfl⟩

theorem witness_InputAnswersReachOnlyInput : ∀ c, Instr.allocate 1 2 ≠ .input c := nofun

theorem witness_StepKeepsTheInvariant :
    (prog [0x70000000#32]).Inv ∧ step (prog [0x70000000#32]) = .next (prog [0x70000000#32]).halt :=
  ⟨inv_prog _ (by decide), rfl⟩

theorem witness_ReachableStatesMeetTheInvariant : Reachable (fresh.hostReset (some [0x70, 0, 0, 0])) := .reset _ _

theorem witness_AllocatedHandleIsFresh :
    (prog [0x70000000#32]).Inv ∧ ∃ t, (prog [0x70000000#32]).alloc 3#32 = .ok (1#32, t) :=
  ⟨inv_prog _ (by decide), _, rfl⟩

theorem witness_NoHandleLeftMeansAllActive :
    (crowded (2 ^ 32)).Inv ∧ (crowded (2 ^ 32)).free = [] ∧ (crowded (2 ^ 32)).nextHandle = 2 ^ 32 :=
  ⟨inv_crowded (2 ^ 32) (Nat.two_pow_pos 32) (Nat.le_refl _), rfl, rfl⟩

theorem witness_PcIncrementNeverWraps :
    (prog [0x70000000#32]).Inv ∧ (prog [0x70000000#32]).fetch = .ok 0x70000000#32 := ⟨inv_prog _ (by decide), rfl⟩

theorem witness_EqualMemoriesAreEqualData :
    Memory.wf (prog [7, 0, 9]).arrays
      ∧ (∀ k, (Assoc.find k (prog [7, 0, 9]).arrays).map Arr.len = (Assoc.find k (prog [7, 0, 9]).arrays).map Arr.len)
      ∧ ∀ k a b, Assoc.find k (prog [7, 0, 9]).arrays = some a → Assoc.find k (prog [7, 0, 9]).arrays = some b →
        ∀ off, a.read off = b.read off :=
  ⟨by decide, fun _ => rfl, fun k a b ha hb off => by rw [ha] at hb; cases hb; rfl⟩

theorem witness_StateAfterAcceptedReset :
    [0x70#8, 0#8, 0#8, 0#8].length = 4 * 1 ∧ 1 < 2 ^ 32 ∧ ({ fresh with maxTotalWords := some 1 } : State).fits 1 = true
      ∧ 0 < 1 := by decide

theorem witness_ImageBecomesSlotZeroBigEndian :
    [0xD0#8, 0x00#8, 0x00#8, 0x48#8].length = 4 * 1 ∧ 1 < 2 ^ 32 ∧ fresh.fits 1 = true ∧ 0 < 1 := by decide

/-- No image; three bytes; 2^32 words. -/
theorem witness_RejectedImageLeavesLoadError :
    (∀ bytes, (none : Option (List Byte)) = some bytes → bytes.length % 4 ≠ 0)
      ∧ [0xD0#8, 0x00#8, 0x00#8].length % 4 ≠ 0
      ∧ 2 ^ 32 ≤ (List.replicate (2 ^ 34) 0#8).length / 4 :=
  ⟨nofun, by decide, by rw [List.length_replicate]; norm_num⟩

/-- An image one word longer than the capacity. -/
theorem witness_OverfullImageLeavesResourceExhausted :
    [0x70#8, 0#8, 0#8, 0#8].length = 4 * 1 ∧ 1 < 2 ^ 32
      ∧ ({ fresh with maxTotalWords := some 0 } : State).fits 1 = false := by decide

end Sys2Proof.Tests
end

/-! Proofs of the state family (10_state.md): the step of a RUNNING machine by its fetch, and the registers after a
reset. -/

namespace Sys2Proof.Machine

open Sys2Proof

/-! A RUNNING step goes by its fetch -/

/-- A fetch that answers a word runs that word's instruction (40_execution.md R91). -/
theorem step_of_storeRead_ok {s : State} {w : Word} (run : s.status = .running)
    (r : s.storeRead 0#32 s.pc = .ok w) : step s = exec (decode w) s := by
  simp [step, run, State.fetch, r]

/-- A fetch that fails enters FAILED with the kind of the failed read (40_execution.md R92). -/
theorem step_of_storeRead_error {s : State} {k : FailKind} (run : s.status = .running)
    (r : s.storeRead 0#32 s.pc = .error k) : step s = .next (s.raise k) := by
  simp [step, run, State.fetch, r]

/-- Below the length of an active array, StoreRead answers a word (20_memory.md R45). -/
theorem State.storeRead_valid {s : State} {h off : Word} (act : s.active h = true) (lt : off.toNat < s.len h) :
    ∃ w, s.storeRead h off = .ok w := by
  obtain ⟨a, bound⟩ := State.active_iff.mp act
  rw [State.len_some bound] at lt
  exact ⟨a.read off.toNat, by rw [State.storeRead_some bound, if_pos lt]⟩

/-- Settles O8: the fetch is the store's checked read of slot 0 at pc, so the two sides of its bound are the two
ends of that read. -/
theorem fetchOutsideSlotZeroFails : Obligations.FetchOutsideSlotZeroFails := by
  intro s run
  constructor
  · intro act lt
    obtain ⟨w, r⟩ := State.storeRead_valid act lt
    exact ⟨w, r, step_of_storeRead_ok run r⟩
  · intro le
    exact step_of_storeRead_error run (State.storeRead_invalid (.inr le))

/-! The registers after a reset -/

/-- An accepted image and a rejected one both leave the cleared register file. -/
@[simp] theorem State.reg_hostReset (s : State) (image : Option (List Byte)) (r : Reg) :
    (s.hostReset image).reg r = 0#32 := by
  rcases s.hostReset_cases image with ⟨k, _, e⟩ | ⟨ws, _, _, e⟩ <;> rw [e]
  · simp [State.rejectImage]
  · exact State.reg_clean s r

/-- Settles O55: `State.reset` is a cleared state, and a reset with any image starts from one. -/
theorem registersAreZeroAtReset : Obligations.RegistersAreZeroAtReset :=
  ⟨State.reg_clean State.reset, State.reg_hostReset⟩

end Sys2Proof.Machine

/-! Proofs of the memory family (20_memory.md): a write changes one word of one array, and a copy into slot 0 shares
nothing with its source. -/

namespace Sys2Proof.Machine

open Sys2Proof

/-! A successful StoreWrite -/

/-- A successful StoreWrite replaces one word of one active array (20_memory.md R47). -/
theorem State.arrays_of_storeWrite {s t : State} {h off v : Word} (w : s.storeWrite h off v = .ok t) :
    ∃ a, s.array h = some a ∧ off.toNat < a.len
      ∧ t.arrays = Assoc.insert h.toNat (a.write off.toNat v) s.arrays := by
  rcases s.storeWrite_cases h off v with ⟨a, bound, lt, e⟩ | ⟨_, e⟩ <;> rw [e] at w <;> cases w
  exact ⟨a, bound, lt, rfl⟩

theorem State.storeRead_storeWrite_same {s t : State} {h off v : Word} (w : s.storeWrite h off v = .ok t) :
    t.storeRead h off = .ok v := by
  obtain ⟨a, _, lt, arrays⟩ := State.arrays_of_storeWrite w
  rw [State.storeRead_some (State.array_insert_same arrays), Arr.len_write, if_pos lt, Arr.read_write_same]

theorem State.storeRead_storeWrite_offset_ne {s t : State} {h off off' v : Word} (w : s.storeWrite h off v = .ok t)
    (ne : off' ≠ off) : t.storeRead h off' = s.storeRead h off' := by
  obtain ⟨a, bound, _, arrays⟩ := State.arrays_of_storeWrite w
  have ne : off'.toNat ≠ off.toNat := fun e => ne (BitVec.eq_of_toNat_eq e)
  rw [State.storeRead_some (State.array_insert_same arrays), State.storeRead_some bound, Arr.len_write,
    Arr.read_write_ne a v ne]

theorem State.storeRead_storeWrite_handle_ne {s t : State} {h g off v : Word} (w : s.storeWrite h off v = .ok t)
    (ne : g ≠ h) (off' : Word) : t.storeRead g off' = s.storeRead g off' := by
  obtain ⟨a, _, _, arrays⟩ := State.arrays_of_storeWrite w
  exact State.storeRead_congr (State.array_insert_ne arrays ne) off'

/-- Another address is one in another array, or another offset of the same array. -/
theorem State.sameWordsExcept_storeWrite {s t : State} {h off v : Word} (w : s.storeWrite h off v = .ok t) :
    SameWordsExcept s t (fun h' off' => h' = h ∧ off' = off) := by
  intro h' off' other
  by_cases same : h' = h
  · subst same
    exact State.storeRead_storeWrite_offset_ne w fun e => other ⟨rfl, e⟩
  · exact State.storeRead_storeWrite_handle_ne w same off'

/-! A successful Dup0 of a nonzero handle -/

/-- A successful Dup0 binds slot 0 to the array of an active source (20_memory.md R52). -/
theorem State.arrays_of_dup0 {s t : State} {h : Word} (nz : h ≠ 0#32) (d : s.dup0 h = .ok t) :
    ∃ a, s.array h = some a ∧ t.arrays = Assoc.insert (0#32).toNat a s.arrays := by
  rcases s.dup0_cases h with ⟨z, _⟩ | ⟨_, _, e⟩ | ⟨_, _, _, _, e⟩ | ⟨a, _, bound, _, e⟩
  · exact absurd z nz
  · rw [e] at d; cases d
  · rw [e] at d; cases d
  · rw [e] at d; cases d
    exact ⟨a, bound, rfl⟩

theorem State.storeRead_dup0_zero {s t : State} {h : Word} (nz : h ≠ 0#32) (d : s.dup0 h = .ok t) (off : Word) :
    t.storeRead 0#32 off = s.storeRead h off := by
  obtain ⟨a, bound, arrays⟩ := State.arrays_of_dup0 nz d
  exact State.storeRead_same_array ((State.array_insert_same arrays).trans bound.symm) off

theorem State.storeRead_dup0_ne {s t : State} {h g : Word} (nz : h ≠ 0#32) (d : s.dup0 h = .ok t) (ne : g ≠ 0#32)
    (off : Word) : t.storeRead g off = s.storeRead g off := by
  obtain ⟨a, _, arrays⟩ := State.arrays_of_dup0 nz d
  exact State.storeRead_congr (State.array_insert_ne arrays ne) off

/-- Settles O30: a write is framed by its handle and its offset, and after a copy the source and slot 0 are two
handles, so a write to either is framed away from the other. -/
theorem arraysNeverAlias : Obligations.ArraysNeverAlias := by
  constructor
  · intro s t h off v w
    exact ⟨State.storeRead_storeWrite_same w, State.sameWordsExcept_storeWrite w⟩
  · intro s t u h off v nz d
    refine ⟨fun off' => ?_, fun w => ?_, fun w => ?_⟩
    · rw [State.storeRead_dup0_zero nz d, State.storeRead_dup0_ne nz d nz]
    · exact State.storeRead_storeWrite_handle_ne w nz.symm
    · exact State.storeRead_storeWrite_handle_ne w nz

/-! The fetch after LOAD_PROGRAM -/

/-- Settles O40: a LOAD_PROGRAM that ends RUNNING did not fail, so slot 0 now reads like the source and pc is
x[C]. -/
theorem fetchAfterLoadProgramReadsNewProgram : Obligations.FetchAfterLoadProgramReadsNewProgram := by
  intro s t w b c run fetched decoded nz stepped running
  rw [step_of_storeRead_ok run fetched, decoded] at stepped
  cases d : s.dup0 (s.reg b) with
  | ok u =>
    rw [exec_loadProgram_ok b c d] at stepped
    cases stepped
    exact State.storeRead_dup0_zero nz d (s.reg c)
  | error k =>
    rw [exec_loadProgram_error b c d] at stepped
    cases stepped
    cases running

end Sys2Proof.Machine

/-! Proofs of the encoding family (30_encoding.md): the decoder by the value of the opcode field, its fields as
numbers and the opcode map. -/

namespace Sys2Proof

/-! The decoder by the value of the opcode field -/

theorem opcodeField_eq_thirteen_iff (w : Word) : opcodeField w = 13#4 ↔ w.toNat / 2 ^ 28 = 13 := by
  rw [← opcodeField_toNat]
  exact BitVec.toNat_inj.symm

@[simp] theorem decodeFields_op (w : Word) : (decodeFields w).op = opcodeField w := by
  by_cases h : opcodeField w = 13#4
  · rw [decodeFields_immediate h, h]
  · rw [decodeFields_standard h]

/-- At a match whose opcode is not 13, the decoder selects by that opcode from the fields of the standard format
(30_encoding.md R71, R76). -/
theorem encodedAs_standard {m : Word} {f : Word → Instr} (ne : m.extractLsb' 28 4 ≠ 13#4)
    (select : ∀ w, Fields.toInstr
      { op := m.extractLsb' 28 4, a := regField w 6, b := regField w 3, c := regField w 0, imm := 0#32 } = f w) :
    EncodedAs m f := by
  intro w masked
  have op := opcodeField_of_masked masked
  rw [decode, decodeFields_standard (op ▸ ne), op, select]

/-- The one match of the immediate format (30_encoding.md R72, R76). -/
theorem encodedAs_immediate :
    EncodedAs 0xD0000000#32 (fun w => .loadImmediate (regField w 25) (immField w)) := by
  intro w masked
  have op : opcodeField w = 13#4 := opcodeField_of_masked masked
  rw [decode, decodeFields_immediate op]
  rfl

/-- Settles O2: the opcode field is the word divided by 2^28, and its value says which format's fields the record
holds. -/
theorem decodeExtractsTheBitFields : Obligations.DecodeExtractsTheBitFields := by
  intro w
  refine ⟨?op, fun is13 => ?immediate, fun not13 => ?standard⟩
  case op => rw [decodeFields_op, opcodeField_toNat]
  case immediate =>
    rw [decodeFields_immediate ((opcodeField_eq_thirteen_iff w).mpr is13)]
    exact ⟨regField_val w 25, rfl, rfl, immField_toNat w⟩
  case standard =>
    rw [decodeFields_standard (mt (opcodeField_eq_thirteen_iff w).mp not13)]
    have c : (regField w 0).val = w.toNat % 8 := by rw [regField_val, Nat.pow_zero, Nat.div_one]
    exact ⟨regField_val w 6, regField_val w 3, c, rfl⟩

/-- Settles O3: the mask leaves the opcode field, so each match is one row of the map; only row 13 has the immediate
format. -/
theorem opcodeMapSelectsTheInstruction : Obligations.OpcodeMapSelectsTheInstruction := by
  refine ⟨?_, ?_, ?_, ?_, ?_, ?_, ?_, ?_, ?_, ?_, ?_, ?_, ?_, encodedAs_immediate, ?_, ?_⟩
  all_goals exact encodedAs_standard (by decide) fun _ => rfl

/-- Settles O1: the two words are closed, so the decoder is run on them (30_encoding.md R81). -/
theorem documentDecodeExamples : Obligations.DocumentDecodeExamples := by
  unfold Obligations.DocumentDecodeExamples
  decide

end Sys2Proof

/-! Proofs of the execution family (40_execution.md): the two illegal opcodes and the pc update. -/

namespace Sys2Proof.Machine

open Sys2Proof

/-! The illegal opcodes -/

/-- An opcode of 14 or more selects one of the two illegal instructions (30_encoding.md R77). -/
theorem decode_illegal {w : Word} (ge : 14 ≤ w.toNat / 2 ^ 28) : decode w = .illegal14 ∨ decode w = .illegal15 := by
  rw [← opcodeField_toNat] at ge
  have ne : opcodeField w ≠ 13#4 := by bv_omega
  have op : opcodeField w = 14#4 ∨ opcodeField w = 15#4 := by bv_omega
  rw [decode, decodeFields_standard ne]
  rcases op with op | op <;> rw [op]
  · exact .inl rfl
  · exact .inr rfl

/-- Settles O9: the fetched word decodes to one of the two illegal instructions, and each of them raises. -/
theorem illegalOpcodesRaiseIllegalOpcode : Obligations.IllegalOpcodesRaiseIllegalOpcode := by
  refine ⟨fun s w run fetched ge => ?_, fun s => ⟨exec_illegal14 s, exec_illegal15 s⟩⟩
  rw [step_of_storeRead_ok run fetched]
  rcases decode_illegal ge with i | i <;> rw [i]
  · exact exec_illegal14 s
  · exact exec_illegal15 s

/-! The pc update -/

/-- Alloc leaves pc, whether it reuses a handle or mints one. -/
theorem State.pc_of_alloc {s t : State} {n g : Word} (r : s.alloc n = .ok (g, t)) : t.pc = s.pc := by
  rcases s.alloc_cases n with ⟨_, e⟩ | ⟨_, _, _, _, e⟩ | ⟨_, _, _, e⟩ <;> rw [e] at r <;> cases r
  · rfl
  · rfl

/-- A LOAD_PROGRAM that does not fail sets pc to the offset C names (40_execution.md R95). -/
theorem pc_of_loadProgram {s t : State} {b c : Reg} (done : exec (.loadProgram b c) s = .next t)
    (ok : t.status ≠ .failed) : t.pc = s.reg c := by
  cases d : s.dup0 (s.reg b) with
  | ok u =>
    rw [exec_loadProgram_ok b c d] at done
    cases done
    exact State.jump_pc u (s.reg c)
  | error k =>
    rw [exec_loadProgram_error b c d] at done
    cases done
    exact absurd (State.raise_status s k) ok

/-- Failure entry, HALT, LOAD_PROGRAM's two jumps and the wait of an INPUT apart, every end moves on by one word
(40_execution.md R95). -/
theorem Ends.pc_of_completed {i : Instr} {s t : State} (e : Ends i s t) (ok : t.status ≠ .failed)
    (notHalt : i ≠ .halt) (notJump : ∀ b c, i ≠ .loadProgram b c)
    (answer : (∃ c, i = .input c) → s.inAnswers ≠ []) : t.pc = s.pc + 1#32 := by
  cases e with
  | fails k => exact absurd (State.raise_status s k) ok
  | halts e => exact absurd e notHalt
  | jumps b c e | loads b c _ e => exact absurd e (notJump b c)
  | waits c e q => exact absurd q (answer ⟨c, e⟩)
  | allocates b c g u _ r => rw [State.advance_pc, State.setReg_pc, State.pc_of_alloc r]
  | writesReg | writesWord | frees | emits | answered => rfl

/-- Settles O16: HALT and LOAD_PROGRAM by their own equations, the other instructions by the way they end. -/
theorem pcUpdateOfCompletedInstructions : Obligations.PcUpdateOfCompletedInstructions := by
  intro i s t _ done ok
  refine ⟨?halt, ?jump, ?next⟩
  case halt =>
    rintro rfl
    rw [exec_halt] at done
    cases done
    exact State.halt_pc s
  case jump =>
    rintro b c rfl
    exact pc_of_loadProgram done ok
  case next =>
    intro notHalt notJump answer
    rw [(ends_of_exec done).pc_of_completed ok notHalt notJump answer]
    exact BitVec.toNat_add _ _

end Sys2Proof.Machine

/-! Proofs of the ALU family (41_alu.md): every completed ALU instruction ends in a register write and pc + 1, so its
frame is one lemma, and each statement adds the value written. -/

namespace Sys2Proof.Machine

open Sys2Proof

/-! The shared end of the family -/

/-- A register write and the move to the next word touch that register and pc alone. -/
theorem State.writesOnlyReg_setReg_advance (s : State) (a : Reg) (v : Word) :
    WritesOnlyReg s (s.setReg a v).advance a v where
  dest := by rw [State.reg_advance, State.reg_setReg_same]
  others r ne := by rw [State.reg_advance, State.reg_setReg_ne s v ne]
  pc := rfl
  out := rfl
  store := ⟨rfl, rfl, rfl⟩
  status := ⟨rfl, rfl, rfl, rfl⟩
  host := ⟨rfl, rfl, rfl⟩

/-- An instruction that writes nothing and moves on has the same frame: it leaves every register its own value. -/
theorem State.writesOnlyReg_advance (s : State) (a : Reg) : WritesOnlyReg s s.advance a (s.reg a) := by
  have w := s.writesOnlyReg_setReg_advance a (s.reg a)
  rwa [State.setReg_self] at w

/-! COND_MOVE -/

/-- Settles O17: the test selects between the write of x[B] and no write. -/
theorem condMoveMovesWhenConditionNonzero : Obligations.CondMoveMovesWhenConditionNonzero := by
  refine ⟨encodedAs_standard (by decide) fun _ => rfl, fun _ _ _ => rfl, fun a b c s =>
    ⟨fun nz => ?moves, fun z => ?keeps⟩⟩
  case moves => exact ⟨_, by rw [exec_condMove, if_neg nz], s.writesOnlyReg_setReg_advance a (s.reg b)⟩
  case keeps => exact ⟨_, by rw [exec_condMove, if_pos z], s.writesOnlyReg_advance a⟩

/-! ADD -/

/-- Settles O18: the sum of two words is their sum as numbers, modulo 2^32. -/
theorem addWrapsModuloTwoToThe32 : Obligations.AddWrapsModuloTwoToThe32 :=
  ⟨encodedAs_standard (by decide) fun _ => rfl, fun _ _ _ => rfl, fun a b c s =>
    ⟨_, _, exec_add a b c s, s.writesOnlyReg_setReg_advance a _, BitVec.toNat_add ..⟩⟩

/-! DIV -/

/-- Settles O20: the zero test selects between failure entry and the write of the unsigned quotient. -/
theorem divIsUnsignedFloorOrFails : Obligations.DivIsUnsignedFloorOrFails := by
  refine ⟨encodedAs_standard (by decide) fun _ => rfl, fun _ _ _ => rfl, fun a b c s =>
    ⟨fun nz => ?divides, fun z => ?fails⟩⟩
  case divides =>
    have floor : (s.reg b / s.reg c).toNat = (s.reg b).toNat / (s.reg c).toNat := BitVec.toNat_udiv
    exact ⟨_, _, by rw [exec_div, if_neg nz], s.writesOnlyReg_setReg_advance a _, floor,
      floor ▸ Nat.div_le_self ..⟩
  case fails =>
    exact ⟨s.raise .divisionByZero, by rw [exec_div, if_pos z], rfl, State.raise_status s _, State.reg_raise s _ a,
      State.raise_pc s _, State.raise_out s _⟩

/-! NAND -/

theorem getLsbD_notAnd (v w : Word) {k : Nat} (lt : k < 32) :
    (notAnd v w).getLsbD k = !(v.getLsbD k && w.getLsbD k) := by
  rw [notAnd, BitVec.getLsbD_not, BitVec.getLsbD_and, decide_eq_true lt, Bool.true_and]

/-- Settles O21: complement and conjunction of words are those of their bits. -/
theorem nandIsBitwise : Obligations.NandIsBitwise :=
  ⟨encodedAs_standard (by decide) fun _ => rfl, fun _ _ _ => rfl, fun a b c s =>
    ⟨_, _, exec_nand a b c s, s.writesOnlyReg_setReg_advance a _, fun _ lt => getLsbD_notAnd _ _ lt⟩⟩

/-! LOAD_IMMEDIATE -/

/-- Settles O22: the immediate format's fields as numbers, and a write of the decoded word. -/
theorem loadImmediateZeroExtends : Obligations.LoadImmediateZeroExtends := by
  refine ⟨fun w masked => ?decoded, fun _ _ => rfl, fun a imm s => ?executed⟩
  case decoded => exact ⟨_, _, encodedAs_immediate w masked, regField_val w 25, immField_toNat w⟩
  case executed => exact ⟨_, exec_loadImmediate a imm s, s.writesOnlyReg_setReg_advance a imm⟩

end Sys2Proof.Machine

/-! Proofs of the array family (42_array.md): the check of each store operation selects between its effect and failure
entry, and the effect's frame is one lemma per operation. -/

namespace Sys2Proof.Machine

open Sys2Proof

/-! ARRAY_INDEX -/

/-- Settles O23: the checked read selects between the write of its word to x[A] and failure entry. -/
theorem arrayIndexReadsOrFails : Obligations.ArrayIndexReadsOrFails := by
  refine ⟨encodedAs_standard (by decide) fun _ => rfl, fun _ _ _ => rfl, fun a b c s =>
    ⟨fun act lt => ?reads, fun bad => ?fails⟩⟩
  case reads =>
    obtain ⟨v, r⟩ := State.storeRead_valid act lt
    exact ⟨_, v, exec_arrayIndex_ok a b c r, r, s.writesOnlyReg_setReg_advance a v⟩
  case fails => exact ⟨exec_arrayIndex_error a b c (State.storeRead_invalid bad), State.reg_raise s _ a⟩

/-! ARRAY_UPDATE -/

/-- Below the length of an active array, StoreWrite puts the word (20_memory.md R47). -/
theorem State.storeWrite_valid {s : State} {h off : Word} (v : Word) (act : s.active h = true)
    (lt : off.toNat < s.len h) : s.storeWrite h off v = .ok (s.putWord h off v) :=
  if_pos (by rw [State.valid, act, Bool.true_and, decide_eq_true lt])

/-- At an inactive handle or beyond the length, StoreWrite fails (20_memory.md R47). -/
theorem State.storeWrite_invalid {s : State} {h off : Word} (v : Word)
    (bad : s.active h = false ∨ s.len h ≤ off.toNat) : s.storeWrite h off v = .error .invalidArrayAccess := by
  rcases s.storeWrite_cases h off v with ⟨a, bound, lt, _⟩ | ⟨_, e⟩
  · rw [State.active_some bound, State.len_some bound] at bad
    rcases bad with inactive | le
    · cases inactive
    · omega
  · exact e

/-- A write neither frees nor resizes: the array written to stays bound with its length, and the others stay as they
are (20_memory.md R47). -/
theorem State.active_len_storeWrite {s t : State} {h off v : Word} (w : s.storeWrite h off v = .ok t) (g : Word) :
    t.active g = s.active g ∧ t.len g = s.len g := by
  obtain ⟨a, bound, _, arrays⟩ := State.arrays_of_storeWrite w
  by_cases same : g = h
  · subst same
    have bound' := State.array_insert_same arrays
    rw [State.active_some bound, State.active_some bound', State.len_some bound, State.len_some bound', Arr.len_write]
    exact ⟨rfl, rfl⟩
  · have kept := State.array_insert_ne arrays same
    exact ⟨State.active_congr kept, State.len_congr kept⟩

/-- The put of a word and the move to the next word touch ARRAYS and pc alone. -/
theorem State.sameButStoreAndPc_putWord_advance (s : State) (h off v : Word) :
    SameButStoreAndPc s (s.putWord h off v).advance where
  regs r := State.reg_putWord s h off v r
  out := State.putWord_out s h off v
  status := ⟨State.putWord_status s h off v, State.putWord_waitIn s h off v, State.putWord_failKind s h off v,
    State.putWord_failPc s h off v⟩
  host := ⟨State.putWord_inAnswers s h off v, State.putWord_inDraws s h off v, State.putWord_maxTotalWords s h off v⟩

/-- Settles O24: the checked write selects between the put of x[C] at that one address and failure entry. -/
theorem arrayUpdateWritesOneWordOrFails : Obligations.ArrayUpdateWritesOneWordOrFails := by
  refine ⟨encodedAs_standard (by decide) fun _ => rfl, fun _ _ _ => rfl, fun a b c s =>
    ⟨fun act lt => ?writes, fun bad => ?fails⟩⟩
  case writes =>
    have w := State.storeWrite_valid (s.reg c) act lt
    have written := State.storeRead_storeWrite_same w
    have others := State.sameWordsExcept_storeWrite w
    have shape := State.active_len_storeWrite w
    exact ⟨_, exec_arrayUpdate_ok a b c w, written, others, shape, State.putWord_free .., State.putWord_nextHandle ..,
      s.sameButStoreAndPc_putWord_advance .., congrArg (· + 1#32) (State.putWord_pc ..)⟩
  case fails =>
    exact ⟨exec_arrayUpdate_error a b c (State.storeWrite_invalid _ bad), State.raise_arrays s _⟩

/-! DEALLOCATE -/

/-- Free drops the binding of an active nonzero handle and pushes the handle onto FREE (20_memory.md R50). -/
theorem State.dealloc_active {s : State} {h : Word} (nz : h ≠ 0#32) (act : s.active h = true) :
    s.dealloc h = .ok { s with arrays := Assoc.erase h.toNat s.arrays, free := h :: s.free } :=
  if_neg (not_or.mpr ⟨nz, by rwa [Bool.not_eq_false]⟩)

/-- Free refuses handle 0 and every inactive handle (20_memory.md R50). -/
theorem State.dealloc_invalid {s : State} {h : Word} (bad : h = 0#32 ∨ s.active h = false) :
    s.dealloc h = .error .invalidDeallocation :=
  if_pos bad

/-- Settles O28: Free's check selects between the loss of one binding and failure entry; every other field of the
state is carried over. -/
theorem deallocateFreesOrFails : Obligations.DeallocateFreesOrFails := by
  refine ⟨encodedAs_standard (by decide) fun _ => rfl, fun _ => rfl, fun c s =>
    ⟨fun nz act => ?frees, fun bad => ?fails⟩⟩
  case frees =>
    exact ⟨_, exec_deallocate_ok c (State.dealloc_active nz act),
      State.active_none (State.array_erase_same (s := s) rfl), rfl,
      fun _ ne => State.array_erase_ne (s := s) rfl ne, rfl,
      ⟨fun _ => rfl, rfl, ⟨rfl, rfl, rfl, rfl⟩, ⟨rfl, rfl, rfl⟩⟩, rfl⟩
  case fails => exact ⟨exec_deallocate_error c (State.dealloc_invalid bad), ⟨rfl, rfl, rfl⟩⟩

end Sys2Proof.Machine

/-! Proofs of the control and I/O family (43_control_io.md): HALT writes STATE alone, and OUTPUT's range test selects
between one more byte of OUT and failure entry. -/

namespace Sys2Proof.Machine

open Sys2Proof

/-! OUTPUT -/

/-- The low byte of a word of at most 255 is the word as a number (43_control_io.md R152). -/
theorem toNat_setWidth_eight {v : Word} (le : v.toNat ≤ 255) : (v.setWidth 8).toNat = v.toNat := by
  rw [BitVec.toNat_setWidth]
  exact Nat.mod_eq_of_lt (Nat.lt_succ_of_le le)

/-- Settles O32: the range test selects between the append of the low byte to OUT and failure entry. -/
theorem outputAppendsOneByteOrFails : Obligations.OutputAppendsOneByteOrFails := by
  refine ⟨encodedAs_standard (by decide) fun _ => rfl, fun _ => rfl, fun c s =>
    ⟨fun le => ?emits, fun gt => ?fails⟩⟩
  case emits =>
    have done : exec (.output c) s = .next (s.outWrite ((s.reg c).setWidth 8)).advance := by
      rw [exec_output, if_neg (Nat.not_lt.mpr le)]
    exact ⟨_, (s.reg c).setWidth 8, done, State.outWrite_out s _, toNat_setWidth_eight le, fun _ => rfl, rfl,
      ⟨rfl, rfl, rfl⟩, ⟨rfl, rfl, rfl, rfl⟩, ⟨rfl, rfl, rfl⟩⟩
  case fails =>
    have done : exec (.output c) s = .next (s.raise .outputRangeError) := by rw [exec_output, if_pos gt]
    exact ⟨_, done, rfl, State.raise_out s _⟩

/-! HALT -/

/-- Settles O31: `State.halt` replaces STATE and carries every other field over. -/
theorem haltEntersHalted : Obligations.HaltEntersHalted :=
  ⟨encodedAs_standard (by decide) fun _ => rfl, rfl, by decide, fun s =>
    ⟨_, exec_halt s, State.halt_status s, State.halt_pc s, State.reg_halt s, State.halt_out s, ⟨rfl, rfl, rfl⟩,
      State.halt_waitIn s, State.halt_failKind s, State.halt_failPc s, ⟨rfl, rfl, rfl⟩⟩⟩

end Sys2Proof.Machine

/-! Proofs of the reset family (70_reset_and_hazards.md): an image of 4n bytes is n words, and the words of an accepted
image become slot 0. -/

namespace Sys2Proof.Machine

open Sys2Proof

/-! The words of an image -/

/-- A byte appended to a bit vector is its least significant byte. -/
theorem toNat_append_byte {m : Nat} (v : BitVec m) (b : Byte) : (v ++ b).toNat = v.toNat * 2 ^ 8 + b.toNat := by
  rw [BitVec.toNat_append, ← Nat.shiftLeft_add_eq_or_of_lt b.isLt, Nat.shiftLeft_eq]

theorem bigEndianWord_toNat (b0 b1 b2 b3 : Byte) : (bigEndianWord b0 b1 b2 b3).toNat
    = b0.toNat * 2 ^ 24 + b1.toNat * 2 ^ 16 + b2.toNat * 2 ^ 8 + b3.toNat := by
  rw [bigEndianWord, toNat_append_byte, toNat_append_byte, toNat_append_byte]
  omega

/-- An image of 4n bytes has n words (70_reset_and_hazards.md R198). -/
theorem imageWords_of_length {image : List Byte} {n : Nat} (len : image.length = 4 * n) :
    ∃ ws, imageWords image = some ws ∧ ws.length = n := by
  induction n generalizing image with
  | zero => exact ⟨[], by rw [List.length_eq_zero_iff.mp len, imageWords], rfl⟩
  | succ n ih =>
    match image, len with
    | b0 :: b1 :: b2 :: b3 :: rest, len =>
      have lenRest : rest.length = 4 * n := by simp only [List.length_cons] at len; omega
      obtain ⟨ws, words, lenWs⟩ := ih lenRest
      exact ⟨bigEndianWord b0 b1 b2 b3 :: ws, by rw [imageWords, words, Option.map_some], congrArg (· + 1) lenWs⟩

/-- Word `i` is made of the bytes `4i` to `4i + 3`; past the end both sides read zeros. -/
theorem getD_imageWords {image : List Byte} {ws : List Word} (words : imageWords image = some ws) (i : Nat) :
    ws.getD i 0#32 = bigEndianWord (image.getD (4 * i) 0#8) (image.getD (4 * i + 1) 0#8)
      (image.getD (4 * i + 2) 0#8) (image.getD (4 * i + 3) 0#8) := by
  induction image using imageWords.induct generalizing ws i with
  | case1 => cases words; simp only [List.getD_nil]; rfl
  | case2 b0 b1 b2 b3 rest ih =>
    rw [imageWords, Option.map_eq_some_iff] at words
    obtain ⟨tail, words, rfl⟩ := words
    cases i with
    | zero => rfl
    | succ i => exact ih words i
  | case3 => simp [imageWords] at words

/-! Reset with an accepted image -/

/-- A reset with an image whose words fit leaves the clean state with those words in slot 0
(70_reset_and_hazards.md R197). -/
theorem State.hostReset_accepted {s : State} {image : List Byte} {ws : List Word} (words : imageWords image = some ws)
    (lt : ws.length < 2 ^ 32) (room : s.fits ws.length = true) :
    s.hostReset (some image) = { s.clean with arrays := [(0, Arr.ofWords ws)] } := by
  have accepted : s.acceptImage (some image) = .ok ws := by
    simpa [State.acceptImage, words, room] using lt
  rw [State.hostReset, accepted]

theorem State.array_zero_hostReset {s : State} {image : List Byte} {ws : List Word}
    (words : imageWords image = some ws) (lt : ws.length < 2 ^ 32) (room : s.fits ws.length = true) :
    (s.hostReset (some image)).array 0#32 = some (Arr.ofWords ws) := by
  rw [State.hostReset_accepted words lt room]
  rfl

/-- Settles O57: the image has n words, they are slot 0, and each is four bytes of the image. -/
theorem imageBecomesSlotZeroBigEndian : Obligations.ImageBecomesSlotZeroBigEndian := by
  intro s image n len lt room
  obtain ⟨ws, words, rfl⟩ := imageWords_of_length len
  have slot0 := State.array_zero_hostReset words lt room
  refine ⟨State.len_some slot0, fun i below => ⟨ws.getD i 0#32, ?read, ?bytes⟩⟩
  case read =>
    have offset : (BitVec.ofNat 32 i).toNat = i := Nat.mod_eq_of_lt (below.trans lt)
    have inRange : i < (Arr.ofWords ws).len := below
    rw [State.storeRead_some slot0, offset, if_pos inRange, Arr.read_ofWords]
  case bytes => rw [getD_imageWords words, bigEndianWord_toNat]

end Sys2Proof.Machine

/-! Proofs of the round trips of the encoding (30_encoding.md R79, R80): decode after encode gives the instruction back,
and encode after decode keeps the used bits of the word. -/

namespace Sys2Proof

/-! The decoder by its two formats -/

theorem decode_standard {w : Word} (ne : opcodeField w ≠ 13#4) :
    decode w = Fields.toInstr
      { op := opcodeField w, a := regField w 6, b := regField w 3, c := regField w 0, imm := 0#32 } := by
  rw [decode, decodeFields_standard ne]

theorem decode_immediate {w : Word} (op : opcodeField w = 13#4) :
    decode w = .loadImmediate (regField w 25) (immField w) := by
  rw [decode, decodeFields_immediate op]
  rfl

/-! Decode after encode -/

/-- The standard format's encoder fills the fields the decoder reads (30_encoding.md R71, R80). -/
theorem decode_encS {op : BitVec 4} (ne : op ≠ 13#4) (a b c : Reg) :
    decode (encS op a b c) = Fields.toInstr { op := op, a := a, b := b, c := c, imm := 0#32 } := by
  have field := opcodeField_encS op a b c
  rw [decode_standard (by rwa [field]), field, regA_encS, regB_encS, regC_encS]

/-- The immediate format's encoder does the same for an immediate of at most 25 bits (30_encoding.md R72, R80). -/
theorem decode_encI (a : Reg) {imm : Word} (le : imm.toNat ≤ maxImmediate.toNat) :
    decode (encI a imm) = .loadImmediate a imm := by
  rw [decode_immediate (opcodeField_encI a imm le), regA_encI a imm le, immField_encI a imm le]

/-- Settles O4: LOAD_IMMEDIATE has the immediate format, and well-formedness bounds its immediate; every other
instruction has the standard format, with 0 in the fields it does not use. -/
theorem decodeOfEncodeIsTheInstruction : Obligations.DecodeOfEncodeIsTheInstruction := by
  intro i wf
  cases i with
  | loadImmediate a imm => exact decode_encI a (of_decide_eq_true wf)
  | _ => exact decode_encS (by decide) _ _ _

/-! The fields of a word, put back in their place -/

/-- The word whose bits `lo` to `lo + n - 1` are 1 and whose other bits are 0. -/
def fieldMask (lo n : Nat) : Word := (BitVec.allOnes n).setWidth 32 <<< lo

/-- A field shifted back to its place is the word under the mask of the field. -/
theorem extractLsb'_shiftLeft (w : Word) (lo n : Nat) :
    (w.extractLsb' lo n).setWidth 32 <<< lo = w &&& fieldMask lo n := by
  ext i lt
  by_cases below : i < lo
  · simp [fieldMask, below]
  · have here : lo + (i - lo) = i := by omega
    simp [fieldMask, below, here, lt, Bool.and_comm]

theorem opcodeField_shiftLeft (w : Word) : (opcodeField w).setWidth 32 <<< 28 = w &&& fieldMask 28 4 :=
  extractLsb'_shiftLeft w 28 4

theorem regWord_regField_shiftLeft (w : Word) (lo : Nat) : regWord (regField w lo) <<< lo = w &&& fieldMask lo 3 := by
  rw [← extractLsb'_shiftLeft, regWord, regField, BitVec.ofNat_toNat]

theorem immField_eq_and (w : Word) : immField w = w &&& fieldMask 0 25 := by
  rw [← extractLsb'_shiftLeft, BitVec.shiftLeft_zero, immField]

/-! Encode after decode -/

/-- The opcodes that use field A of the standard format (30_encoding.md R78). -/
def usesA (op : BitVec 4) : Bool := op < 7#4

/-- The opcodes that use field B. -/
def usesB (op : BitVec 4) : Bool := op < 7#4 || op == 8#4 || op == 12#4

/-- The opcodes that use field C. -/
def usesC (op : BitVec 4) : Bool := op < 13#4 && op != 7#4

/-- A register field that is kept, or 0 in its place. -/
def keepReg (keep : Bool) (r : Reg) : Reg := if keep then r else 0

/-- The mask of a register field that is kept. -/
def keepMask (keep : Bool) (lo : Nat) : Word := if keep then fieldMask lo 3 else 0#32

theorem usedBits_standard (op : BitVec 4) (ne : op ≠ 13#4) :
    usedBits op
      = fieldMask 28 4 ||| keepMask (usesA op) 6 ||| keepMask (usesB op) 3 ||| keepMask (usesC op) 0 := by
  revert op
  decide

/-- What the opcode map gives for the standard format (30_encoding.md R76, R82): an instruction of that opcode, which
is well-formed, and is encoded with 0 in the fields it does not use. -/
theorem toInstr_standard {op : BitVec 4} (ne : op ≠ 13#4) (a b c : Reg) (imm : Word) :
    let i := Fields.toInstr { op := op, a := a, b := b, c := c, imm := imm }
    i.opcode = op ∧ i.wellFormed = true
      ∧ encode i = encS op (keepReg (usesA op) a) (keepReg (usesB op) b) (keepReg (usesC op) c) := by
  rcases opcode_cases op with
    rfl | rfl | rfl | rfl | rfl | rfl | rfl | rfl | rfl | rfl | rfl | rfl | rfl | rfl | rfl | rfl
  pick_goal 14
  · exact absurd rfl ne
  all_goals exact ⟨rfl, rfl, rfl⟩

theorem regWord_keepReg_shiftLeft (w : Word) (keep : Bool) (lo : Nat) :
    regWord (keepReg keep (regField w lo)) <<< lo = w &&& keepMask keep lo := by
  cases keep
  · exact (BitVec.zero_shiftLeft lo).trans BitVec.and_zero.symm
  · exact regWord_regField_shiftLeft w lo

/-- The lowest register field needs no shift. -/
theorem regWord_keepReg_zero (w : Word) (keep : Bool) :
    regWord (keepReg keep (regField w 0)) = w &&& keepMask keep 0 := by
  rw [← regWord_keepReg_shiftLeft, BitVec.shiftLeft_zero]

/-- The kept fields of the standard format encode to the word under the masks of the kept fields. -/
theorem encS_keepReg (w : Word) (keepA keepB keepC : Bool) :
    encS (opcodeField w) (keepReg keepA (regField w 6)) (keepReg keepB (regField w 3)) (keepReg keepC (regField w 0))
      = w &&& (fieldMask 28 4 ||| keepMask keepA 6 ||| keepMask keepB 3 ||| keepMask keepC 0) := by
  rw [encS, opcodeField_shiftLeft, regWord_keepReg_shiftLeft, regWord_keepReg_shiftLeft, regWord_keepReg_zero,
    BitVec.and_or_distrib_left, BitVec.and_or_distrib_left, BitVec.and_or_distrib_left]

/-- The immediate format uses every bit. -/
theorem encI_fields {w : Word} (op : opcodeField w = 13#4) : encI (regField w 25) (immField w) = w := by
  have opcode : 13#32 <<< 28 = w &&& fieldMask 28 4 := by rw [← opcodeField_shiftLeft, op]; rfl
  rw [encI, opcode, regWord_regField_shiftLeft, immField_eq_and, ← BitVec.and_or_distrib_left,
    ← BitVec.and_or_distrib_left]
  exact BitVec.and_allOnes

theorem opcode_decode (w : Word) : (decode w).opcode = opcodeField w := by
  by_cases op : opcodeField w = 13#4
  · rw [decode_immediate op, op]
    rfl
  · obtain ⟨opcode, _, _⟩ := toInstr_standard op ..
    rw [decode_standard op]
    exact opcode

/-- Only an immediate can be out of range, and the immediate of a word is a field of 25 bits. -/
theorem wellFormed_decode (w : Word) : (decode w).wellFormed = true := by
  by_cases op : opcodeField w = 13#4
  · rw [decode_immediate op]
    exact decide_eq_true (immField_le w)
  · obtain ⟨_, wf, _⟩ := toInstr_standard op ..
    rw [decode_standard op]
    exact wf

theorem encode_decode (w : Word) : encode (decode w) = w &&& usedBits (opcodeField w) := by
  by_cases op : opcodeField w = 13#4
  · rw [decode_immediate op, op]
    exact (encI_fields op).trans BitVec.and_allOnes.symm
  · obtain ⟨_, _, code⟩ := toInstr_standard op ..
    rw [decode_standard op, code, encS_keepReg, usedBits_standard _ op]

/-- Settles O5: the encoder puts the used fields of the word back in their place and 0 elsewhere. -/
theorem encodeOfDecodeClearsIgnoredBits : Obligations.EncodeOfDecodeClearsIgnoredBits :=
  fun w => ⟨wellFormed_decode w, encode_decode w⟩

/-! Words of the same instruction -/

/-- Decoding depends on the used bits alone: their word is the canonical encoding of the instruction. -/
theorem decode_usedBits (w : Word) : decode (w &&& usedBits (opcodeField w)) = decode w := by
  rw [← encode_decode]
  exact decodeOfEncodeIsTheInstruction _ (wellFormed_decode w)

/-- Settles O6: an instruction has one opcode and one canonical encoding, which is the word of its used bits; and that
word decodes to the instruction again. -/
theorem sameInstructionIffSameUsedBits : Obligations.SameInstructionIffSameUsedBits := by
  intro w v
  constructor
  · intro same
    have op : opcodeField w = opcodeField v := by rw [← opcode_decode w, same, opcode_decode]
    have code : encode (decode w) = encode (decode v) := congrArg encode same
    rw [encode_decode, encode_decode] at code
    exact ⟨op, code⟩
  · rintro ⟨op, bits⟩
    rw [← decode_usedBits w, bits, decode_usedBits]

end Sys2Proof

/-! Proofs over the ways an instruction and a step can end: which fields each end changes, and that a failure writes
the report alone. -/

namespace Sys2Proof.Machine

open Sys2Proof

/-! A successful Alloc -/

/-- A successful Alloc pops its handle from FREE or mints it (20_memory.md R48). -/
theorem State.alloc_ok {s t : State} {n g : Word} (r : s.alloc n = .ok (g, t)) :
    s.fits (s.arrays.total + n.toNat) = true
      ∧ ((∃ rest, s.free = g :: rest ∧ t = ({ s with free := rest } : State).bindZeros g n)
        ∨ (s.free = [] ∧ s.nextHandle < 2 ^ 32 ∧ g = BitVec.ofNat 32 s.nextHandle
          ∧ t = ({ s with nextHandle := s.nextHandle + 1 } : State).bindZeros g n)) := by
  rcases s.alloc_cases n with ⟨_, e⟩ | ⟨h, rest, free, room, e⟩ | ⟨free, left, room, e⟩ <;> rw [e] at r <;> cases r
  · exact ⟨room, .inl ⟨rest, free, rfl⟩⟩
  · exact ⟨room, .inr ⟨free, left, rfl, rfl⟩⟩

/-- Beside the new array, a successful Alloc changes FREE and NEXT alone. -/
theorem State.eq_bindZeros_of_alloc {s t : State} {n g : Word} (r : s.alloc n = .ok (g, t)) :
    ∃ free next, t = ({ s with free := free, nextHandle := next } : State).bindZeros g n := by
  obtain ⟨_, ⟨rest, _, rfl⟩ | ⟨_, _, _, rfl⟩⟩ := State.alloc_ok r
  · exact ⟨rest, s.nextHandle, rfl⟩
  · exact ⟨s.free, s.nextHandle + 1, rfl⟩

/-! Which handles are active after a binding changed -/

theorem State.active_insert {s t : State} {h : Word} {a : Arr} (e : t.arrays = Assoc.insert h.toNat a s.arrays)
    (g : Word) : t.active g = true ↔ g = h ∨ s.active g = true := by
  by_cases same : g = h
  · subst same
    simp [State.active_some (State.array_insert_same e)]
  · simp [State.active_congr (State.array_insert_ne e same), same]

theorem State.active_erase {s t : State} {h : Word} (e : t.arrays = Assoc.erase h.toNat s.arrays) (g : Word) :
    t.active g = true ↔ g ≠ h ∧ s.active g = true := by
  by_cases same : g = h
  · subst same
    simp [State.active_none (State.array_erase_same e)]
  · simp [State.active_congr (State.array_erase_ne e same), same]

/-! What each end changes -/

theorem Ends.reg_of_ne_dest {i : Instr} {s t : State} (e : Ends i s t) {r : Reg} (ne : dest i ≠ some r) :
    t.reg r = s.reg r := by
  cases e with
  | writesReg a v d =>
    have other : r ≠ a := fun same => ne (same ▸ d)
    rw [State.reg_advance, State.reg_setReg_ne s v other]
  | allocates b c g u i_eq a =>
    subst i_eq
    obtain ⟨_, _, rfl⟩ := State.eq_bindZeros_of_alloc a
    have other : r ≠ b := fun same => ne (same ▸ rfl)
    rw [State.reg_advance, State.reg_setReg_ne _ g other]
    rfl
  | answered c ans rest i_eq q =>
    subst i_eq
    have other : r ≠ c := fun same => ne (same ▸ rfl)
    rw [State.reg_advance, State.reg_setReg_ne _ _ other]
    rfl
  | fails | writesWord | frees | emits | waits | halts | jumps | loads => rfl

theorem Ends.sameStore {i : Instr} {s t : State} (e : Ends i s t) (quiet : changesStore i = false) :
    SameStore s t := by
  cases e with
  | writesWord _ _ _ _ i_eq | allocates _ _ _ _ i_eq | frees _ i_eq | jumps _ _ i_eq | loads _ _ _ i_eq =>
    subst i_eq
    cases quiet
  | fails | writesReg | emits | answered | waits | halts => exact ⟨rfl, rfl, rfl⟩

theorem Ends.nextHandle_cases {i : Instr} {s t : State} (e : Ends i s t) :
    t.nextHandle = s.nextHandle ∨ (∃ b c, i = .allocate b c) ∧ t.nextHandle = s.nextHandle + 1 := by
  cases e with
  | allocates b c g u i_eq a =>
    obtain ⟨_, ⟨_, _, rfl⟩ | ⟨_, _, _, rfl⟩⟩ := State.alloc_ok a
    · exact .inl rfl
    · exact .inr ⟨⟨b, c, i_eq⟩, rfl⟩
  | fails | writesReg | writesWord | frees | emits | answered | waits | halts | jumps | loads => exact .inl rfl

theorem Ends.free_of_ne {i : Instr} {s t : State} (e : Ends i s t) (notAllocate : ∀ b c, i ≠ .allocate b c)
    (notDeallocate : ∀ c, i ≠ .deallocate c) : t.free = s.free := by
  cases e with
  | allocates b c _ _ i_eq => exact absurd i_eq (notAllocate b c)
  | frees c i_eq => exact absurd i_eq (notDeallocate c)
  | fails | writesReg | writesWord | emits | answered | waits | halts | jumps | loads => rfl

theorem Ends.maxTotalWords {i : Instr} {s t : State} (e : Ends i s t) : t.maxTotalWords = s.maxTotalWords := by
  cases e with
  | allocates b c g u i_eq a =>
    obtain ⟨_, _, rfl⟩ := State.eq_bindZeros_of_alloc a
    rfl
  | fails | writesReg | writesWord | frees | emits | answered | waits | halts | jumps | loads => rfl

theorem Ends.out_cases {i : Instr} {s t : State} (e : Ends i s t) :
    t.out = s.out
      ∨ ∃ c, i = .output c ∧ (s.reg c).toNat ≤ 255 ∧ t.out = s.out ++ [(s.reg c).setWidth 8] := by
  cases e with
  | emits c i_eq le => exact .inr ⟨c, i_eq, le, rfl⟩
  | allocates b c g u i_eq a =>
    obtain ⟨_, _, rfl⟩ := State.eq_bindZeros_of_alloc a
    exact .inl rfl
  | fails | writesReg | writesWord | frees | answered | waits | halts | jumps | loads => exact .inl rfl

/-- ARRAY_UPDATE, ALLOCATE and LOAD_PROGRAM bind a handle, and DEALLOCATE never unbinds handle 0. -/
theorem Ends.active_zero {i : Instr} {s t : State} (e : Ends i s t) (act : s.active 0#32 = true) :
    t.active 0#32 = true := by
  cases e with
  | writesWord => exact (State.active_insert (s := s) rfl _).mpr (.inr act)
  | allocates b c g u _ a =>
    obtain ⟨_, _, rfl⟩ := State.eq_bindZeros_of_alloc a
    exact (State.active_insert (s := s) rfl _).mpr (.inr act)
  | frees c _ nz => exact (State.active_erase (s := s) rfl _).mpr ⟨nz.symm, act⟩
  | loads => exact (State.active_insert (s := s) (h := 0#32) rfl _).mpr (.inr act)
  | fails | writesReg | emits | answered | waits | halts | jumps => exact act

/-- An instruction fails with one of its own kinds, or else leaves the report clear, and STATE unless it is HALT. -/
theorem Ends.report_cases {i : Instr} {s t : State} (e : Ends i s t) :
    (∃ k ∈ ownFailures i, t = s.raise k)
      ∨ ((t.status = s.status ∨ t.status = .halted) ∧ t.failKind = s.failKind ∧ t.failPc = s.failPc) := by
  cases e with
  | fails k own => exact .inl ⟨k, own, rfl⟩
  | allocates b c g u _ a =>
    obtain ⟨_, _, rfl⟩ := State.eq_bindZeros_of_alloc a
    exact .inr ⟨.inl rfl, rfl, rfl⟩
  | halts => exact .inr ⟨.inr rfl, rfl, rfl⟩
  | writesReg | writesWord | frees | emits | answered | waits | jumps | loads => exact .inr ⟨.inl rfl, rfl, rfl⟩

/-! Statements over every instruction -/

/-- Settles O41: an end writes no register, or the one the instruction names as its destination. -/
theorem onlyTheDestinationRegisterChanges : Obligations.OnlyTheDestinationRegisterChanges :=
  fun _ _ _ done _ ne => (ends_of_exec done).reg_of_ne_dest ne

/-- Settles O42: each of the four claims is read off the ends. -/
theorem onlyStoreInstructionsChangeTheStore : Obligations.OnlyStoreInstructionsChangeTheStore := by
  intro i s t done
  have e := ends_of_exec done
  refine ⟨e.sameStore, fun notAllocate => ?next, e.free_of_ne, e.maxTotalWords⟩
  case next =>
    rcases e.nextHandle_cases with same | ⟨⟨b, c, i_eq⟩, _⟩
    · exact same
    · exact absurd i_eq (notAllocate b c)

/-- Settles O15: every instruction has an end, and a step that runs no instruction answers a state itself. -/
theorem everyStepAnswersANextState : Obligations.EveryStepAnswersANextState := by
  have ends (i : Instr) (s : State) : ∃ t, exec i s = .next t := by
    obtain ⟨t, done, _⟩ := exec_ends i s
    exact ⟨t, done⟩
  refine ⟨ends, fun s => ?_⟩
  unfold step
  split
  · split
    · exact ends _ s
    · exact ⟨_, rfl⟩
  · exact ⟨s, rfl⟩
  · exact ⟨s, rfl⟩

/-! Failures -/

theorem State.failsWith_raise (s : State) (k : FailKind) : FailsWith s (s.raise k) k where
  status := rfl
  kind := rfl
  failPc := rfl
  regs _ := rfl
  pc := rfl
  waitIn := rfl
  arrays := rfl
  free := rfl
  nextHandle := rfl
  out := rfl
  inAnswers := rfl
  inDraws := rfl
  maxTotalWords := rfl

/-- Settles O10: failure entry is an update of the three fields of the report. -/
theorem failureEntryWritesOnlyTheReport : Obligations.FailureEntryWritesOnlyTheReport :=
  State.failsWith_raise

/-- From a state that is not FAILED, only failure entry leads to FAILED. -/
theorem Ends.raise_of_failed {i : Instr} {s t : State} (e : Ends i s t) (ok : s.status ≠ .failed)
    (failed : t.status = .failed) : ∃ k ∈ ownFailures i, t = s.raise k := by
  rcases e.report_cases with raised | ⟨same | halted, _⟩
  · exact raised
  · exact absurd (same ▸ failed) ok
  · rw [halted] at failed
    cases failed

/-- No instruction raises the two kinds that name no failure of an instruction (60_exceptions.md R171). -/
theorem instrKind_of_mem_ownFailures {i : Instr} {k : FailKind} (own : k ∈ ownFailures i) :
    k ≠ .noFailure ∧ k ≠ .programLoadError := by
  have notNone : .noFailure ∉ ownFailures i := by cases i <;> simp [ownFailures]
  have notLoad : .programLoadError ∉ ownFailures i := by cases i <;> simp [ownFailures]
  exact ⟨fun e => notNone (e ▸ own), fun e => notLoad (e ▸ own)⟩

/-- Settles O13: a RUNNING step fails at its fetch or in its instruction, both by failure entry from the state before
it. -/
theorem failingStepChangesOnlyTheReport : Obligations.FailingStepChangesOnlyTheReport := by
  intro s t run stepped failed
  rcases step_cases stepped with ⟨notRunning, _⟩ | ⟨_, _, rfl⟩ | ⟨w, _, _, e⟩
  · exact absurd run notRunning
  · exact ⟨.invalidArrayAccess, nofun, nofun, s.failsWith_raise _⟩
  · obtain ⟨k, own, rfl⟩ := e.raise_of_failed (by rw [run]; nofun) failed
    obtain ⟨notNone, notLoad⟩ := instrKind_of_mem_ownFailures own
    exact ⟨k, notNone, notLoad, s.failsWith_raise k⟩

/-- Settles O14: an instruction that ends FAILED raised one of its own kinds. -/
theorem instructionsFailOnlyWithTheirOwnKinds : Obligations.InstructionsFailOnlyWithTheirOwnKinds := by
  intro i s t run done failed
  obtain ⟨k, own, rfl⟩ := (ends_of_exec done).raise_of_failed (by rw [run]; nofun) failed
  exact own

/-! Statements over every step -/

/-- Settles O7: the fetch is the store's read of slot 0 at pc, and what it answers is decoded and run. -/
theorem stepRunsTheDecodedInstruction : Obligations.StepRunsTheDecodedInstruction :=
  fun _ w run fetched => ⟨wellFormed_decode w, step_of_storeRead_ok run fetched⟩

theorem step_of_halted {s : State} (halted : s.status = .halted) : step s = .next s := by
  simp only [step, halted]

theorem step_of_failed {s : State} (failed : s.status = .failed) : step s = .next s := by
  simp only [step, failed]

/-- Settles O11: the step answers the state itself in each of the two terminal states. -/
theorem terminalStatesAreAbsorbing : Obligations.TerminalStatesAreAbsorbing := by
  rintro s (halted | failed)
  · exact step_of_halted halted
  · exact step_of_failed failed

/-- Settles O43: only an OUTPUT that passed its range test appends, and what it appends is its register's value. -/
theorem outputTraceOnlyGrows : Obligations.OutputTraceOnlyGrows := by
  intro s t stepped
  rcases step_cases stepped with ⟨_, rfl⟩ | ⟨_, _, rfl⟩ | ⟨w, _, fetched, e⟩
  · exact .inl rfl
  · exact .inl rfl
  · rcases e.out_cases with same | ⟨c, decoded, le, appended⟩
    · exact .inl same
    · exact .inr ⟨w, c, _, fetched, decoded, toNat_setWidth_eight le, appended⟩

/-- Settles O44: no end of an instruction unbinds handle 0, and no other step touches ARRAYS. -/
theorem programArrayStaysActive : Obligations.ProgramArrayStaysActive := by
  intro s t act stepped
  rcases step_cases stepped with ⟨_, rfl⟩ | ⟨_, _, rfl⟩ | ⟨w, _, _, e⟩
  · exact act
  · exact act
  · exact e.active_zero act

/-- Settles O45: NEXT changes by a mint alone, and a mint adds 1. -/
theorem nextHandleNeverDecreases : Obligations.NextHandleNeverDecreases := by
  intro s t stepped
  have next : t.nextHandle = s.nextHandle ∨ t.nextHandle = s.nextHandle + 1 := by
    rcases step_cases stepped with ⟨_, rfl⟩ | ⟨_, _, rfl⟩ | ⟨w, _, _, e⟩
    · exact .inl rfl
    · exact .inl rfl
    · exact e.nextHandle_cases.imp_right And.right
  omega

/-! The STATUS word -/

/-- The bits of an appended vector stand below those of the first. -/
theorem toNat_append_eq_add {m n : Nat} (v : BitVec m) (w : BitVec n) : (v ++ w).toNat = v.toNat * 2 ^ n + w.toNat := by
  rw [BitVec.toNat_append, ← Nat.shiftLeft_add_eq_or_of_lt w.isLt, Nat.shiftLeft_eq]

/-- The four fields of STATUS at their places (10_state.md R20). -/
theorem State.statusWord_toNat (s : State) : s.statusWord.toNat
    = s.status.code.toNat + 4 * s.waitIn.toNat + 16 * s.failKind.code.toNat := by
  rw [State.statusWord, toNat_append_eq_add, toNat_append_eq_add, toNat_append_eq_add, toNat_append_eq_add,
    BitVec.toNat_ofBool]
  simp only [BitVec.toNat_ofNat]
  omega

/-- Settles O12: each field is at its place and holds the code of its value. -/
theorem statusWordLayout : Obligations.StatusWordLayout := by
  intro s
  rw [State.statusWord_toNat]
  refine congrArg₂ (· + ·) (congrArg₂ (· + ·) ?status (congrArg (4 * ·) ?wait)) (congrArg (16 * ·) ?kind)
  case status => cases s.status <;> rfl
  case wait => cases s.waitIn <;> rfl
  case kind => cases s.failKind <;> rfl

end Sys2Proof.Machine

/-! Proofs of the invariant of the machine's states (10_state.md R21 to R27): the store's part by the way an
instruction changes ARRAYS, the report's and the wait's by the way it ends. -/

namespace Sys2Proof.Machine

open Sys2Proof

/-! The store's part of the invariant -/

/-- The clauses of `State.Inv` about ARRAYS, FREE, NEXT and the capacity. -/
structure State.StoreOk (s : State) : Prop where
  store : Memory.wf s.arrays
  slot0 : s.active 0#32 = true
  pool : s.FreePoolOk
  mint : s.MintOk
  room : s.fits s.arrays.total = true

theorem State.Inv.storeOk {s : State} (inv : s.Inv) : s.StoreOk :=
  ⟨inv.store, inv.slot0, inv.pool, inv.mint, inv.room⟩

theorem State.fits_mono {s t : State} {m n : Nat} (cap : t.maxTotalWords = s.maxTotalWords) (le : m ≤ n)
    (room : s.fits n = true) : t.fits m = true := by
  unfold State.fits at *
  rw [cap]
  split
  · rename_i most bound
    rw [bound] at room
    exact decide_eq_true (le.trans (of_decide_eq_true room))
  · rfl

/-- Where the active handles stay the same, FREE and NEXT stay in order. -/
theorem State.StoreOk.of_same_handles {s t : State} (ok : s.StoreOk) (act : ∀ h, t.active h = s.active h)
    (free : t.free = s.free) (next : t.nextHandle = s.nextHandle) (wf : Memory.wf t.arrays)
    (room : t.fits t.arrays.total = true) : t.StoreOk where
  store := wf
  slot0 := (act _).trans ok.slot0
  pool := by
    obtain ⟨nodup, nonzero, inactive, minted⟩ := ok.pool
    constructor <;> simpa only [act, free, next]
  mint := by
    obtain ⟨low, high, active, noLeak⟩ := ok.mint
    constructor <;> simpa only [act, free, next]
  room := room

theorem State.StoreOk.of_sameStore {s t : State} (ok : s.StoreOk) (same : SameStore s t)
    (cap : t.maxTotalWords = s.maxTotalWords) : t.StoreOk := by
  obtain ⟨arrays, free, next⟩ := same
  exact ok.of_same_handles (State.active_of_arrays arrays) free next (arrays ▸ ok.store)
    (State.fits_mono cap (arrays ▸ Nat.le_refl _) ok.room)

/-- The total after a binding of an active handle is that before it, less the old length, with the new one. -/
theorem State.total_rebind {s : State} {h : Word} {old : Arr} (wf : Memory.wf s.arrays) (bound : s.array h = some old)
    (a : Arr) : Memory.total (Assoc.insert h.toNat a s.arrays) + old.len = s.arrays.total + a.len := by
  have total := Memory.total_insert wf.1 h.toNat a
  rwa [show Assoc.find h.toNat s.arrays = some old from bound] at total

/-- A new array under an active handle keeps the store's invariant, if it is canonical and leaves room. -/
theorem State.StoreOk.rebind {s t : State} (ok : s.StoreOk) {h : Word} {a : Arr} (act : s.active h = true)
    (arrays : t.arrays = Assoc.insert h.toNat a s.arrays) (free : t.free = s.free)
    (next : t.nextHandle = s.nextHandle) (wf : a.wf) (room : t.fits t.arrays.total = true) : t.StoreOk := by
  refine ok.of_same_handles (fun g => ?_) free next (arrays ▸ Memory.wf_insert ok.store h.isLt wf) room
  have same : g = h ∨ s.active g = true ↔ s.active g = true := or_iff_right_of_imp fun e => e ▸ act
  exact Bool.eq_iff_iff.mpr ((State.active_insert arrays g).trans same)

/-- Free makes its handle inactive and pushes it, and it was not in FREE, since a free handle is not active. -/
theorem State.StoreOk.free {s t : State} (ok : s.StoreOk) {h : Word} (nz : h ≠ 0#32) (act : s.active h = true)
    (arrays : t.arrays = Assoc.erase h.toNat s.arrays) (free : t.free = h :: s.free)
    (next : t.nextHandle = s.nextHandle) (cap : t.maxTotalWords = s.maxTotalWords) : t.StoreOk where
  store := arrays ▸ Memory.wf_erase _ ok.store
  slot0 := (State.active_erase arrays _).mpr ⟨nz.symm, ok.slot0⟩
  pool := by
    obtain ⟨nodup, nonzero, inactive, minted⟩ := ok.pool
    have notFree : h ∉ s.free := fun mem => Bool.eq_false_iff.mp (inactive h mem) act
    have handle : h.toNat < s.nextHandle := (ok.mint.active h act).resolve_left nz
    constructor <;> rw [free]
    · exact List.nodup_cons.mpr ⟨notFree, nodup⟩
    · exact List.not_mem_cons_of_ne_of_not_mem nz.symm nonzero
    · intro g mem
      refine Bool.eq_false_iff.mpr fun active => ?_
      obtain ⟨ne, active⟩ := (State.active_erase arrays g).mp active
      exact Bool.eq_false_iff.mp (inactive g (List.mem_of_ne_of_mem ne mem)) active
    · rw [next]
      exact List.forall_mem_cons.mpr ⟨handle, minted⟩
  mint := by
    obtain ⟨low, high, active, noLeak⟩ := ok.mint
    constructor <;> rw [next]
    · exact low
    · exact high
    · exact fun g act => active g ((State.active_erase arrays g).mp act).2
    · intro g gnz lt
      by_cases same : g = h
      · exact .inr (by rw [free, same]; exact List.mem_cons_self)
      · rcases noLeak g gnz lt with act | mem
        · exact .inl ((State.active_erase arrays g).mpr ⟨same, act⟩)
        · exact .inr (by rw [free]; exact List.mem_cons_of_mem _ mem)
  room := by
    have total := Memory.total_erase ok.store.1 h.toNat
    exact State.fits_mono cap (arrays ▸ Nat.le.intro total) ok.room

/-- What FREE and NEXT have in common after a pop of FREE and after a mint: `g` is minted and not free, and every other
handle is minted or free as it was. -/
structure State.Takes (s t : State) (g : Word) : Prop where
  sublist : t.free.Sublist s.free
  notFree : g ∉ t.free
  others : ∀ h ∈ s.free, h = g ∨ h ∈ t.free
  le : s.nextHandle ≤ t.nextHandle
  high : t.nextHandle ≤ 2 ^ 32
  handle : g.toNat < t.nextHandle
  minted : ∀ h : Word, h.toNat < t.nextHandle → h = g ∨ h.toNat < s.nextHandle

theorem State.StoreOk.takes_of_alloc {s t : State} (ok : s.StoreOk) {n g : Word} (r : s.alloc n = .ok (g, t)) :
    s.Takes t g := by
  obtain ⟨_, ⟨rest, free, rfl⟩ | ⟨free, left, rfl, rfl⟩⟩ := State.alloc_ok r
  case inl =>
    have mem : g ∈ s.free := free ▸ List.mem_cons_self
    exact {
      sublist := free ▸ List.sublist_cons_self g rest
      notFree := (List.nodup_cons.mp (free ▸ ok.pool.nodup)).1
      others := fun h mem => List.mem_cons.mp (free ▸ mem)
      le := Nat.le_refl _
      high := ok.mint.high
      handle := ok.pool.minted g mem
      minted := fun h lt => .inr lt }
  case inr =>
    have handle : (BitVec.ofNat 32 s.nextHandle).toNat = s.nextHandle := Nat.mod_eq_of_lt left
    exact {
      sublist := List.Sublist.refl _
      notFree := by simp [free]
      others := by simp [free]
      le := Nat.le_succ _
      high := left
      handle := Nat.lt_succ_of_le handle.le
      minted := fun h lt => (Nat.lt_succ_iff_lt_or_eq.mp lt).symm.imp_left fun e =>
        BitVec.eq_of_toNat_eq (e.trans handle.symm) }

/-- The handle Alloc returns is not 0 and was not active: it was free, or NEXT had not passed it. -/
theorem State.StoreOk.fresh_of_alloc {s t : State} (ok : s.StoreOk) {n g : Word} (r : s.alloc n = .ok (g, t)) :
    g ≠ 0#32 ∧ s.active g = false := by
  obtain ⟨_, ⟨rest, free, _⟩ | ⟨_, left, rfl, _⟩⟩ := State.alloc_ok r
  · have mem : g ∈ s.free := free ▸ List.mem_cons_self
    exact ⟨fun z => ok.pool.nonzero (z ▸ mem), ok.pool.inactive g mem⟩
  · have handle : (BitVec.ofNat 32 s.nextHandle).toNat = s.nextHandle := Nat.mod_eq_of_lt left
    have nz : BitVec.ofNat 32 s.nextHandle ≠ 0#32 := fun z => by
      rw [z] at handle
      exact absurd ok.mint.low (by rw [← handle]; decide)
    refine ⟨nz, Bool.eq_false_iff.mpr fun act => ?_⟩
    have lt := (ok.mint.active _ act).resolve_left nz
    exact Nat.lt_irrefl _ (handle ▸ lt)

theorem State.arrays_of_alloc {s t : State} {n g : Word} (r : s.alloc n = .ok (g, t)) :
    t.arrays = Assoc.insert g.toNat (Arr.zeros n.toNat) s.arrays := by
  obtain ⟨_, _, rfl⟩ := State.eq_bindZeros_of_alloc r
  rfl

theorem State.StoreOk.alloc {s t : State} (ok : s.StoreOk) {n g : Word} (r : s.alloc n = .ok (g, t)) :
    t.StoreOk := by
  have arrays := State.arrays_of_alloc r
  have active := State.active_insert arrays
  have takes := ok.takes_of_alloc r
  obtain ⟨nz, inactive⟩ := ok.fresh_of_alloc r
  exact {
    store := State.alloc_wf ok.store r
    slot0 := (active _).mpr (.inr ok.slot0)
    pool := {
      nodup := takes.sublist.nodup ok.pool.nodup
      nonzero := fun mem => ok.pool.nonzero (takes.sublist.subset mem)
      inactive := fun h mem => Bool.eq_false_iff.mpr fun act => by
        rcases (active h).mp act with rfl | act
        · exact takes.notFree mem
        · exact Bool.eq_false_iff.mp (ok.pool.inactive h (takes.sublist.subset mem)) act
      minted := fun h mem => (ok.pool.minted h (takes.sublist.subset mem)).trans_le takes.le }
    mint := {
      low := ok.mint.low.trans takes.le
      high := takes.high
      active := fun h act => by
        rcases (active h).mp act with rfl | act
        · exact .inr takes.handle
        · exact (ok.mint.active h act).imp_right fun lt => lt.trans_le takes.le
      noLeak := fun h hnz lt => by
        rcases takes.minted h lt with rfl | lt
        · exact .inl ((active h).mpr (.inl rfl))
        · rcases ok.mint.noLeak h hnz lt with act | mem
          · exact .inl ((active h).mpr (.inr act))
          · exact (takes.others h mem).imp_left fun e => (active h).mpr (.inl e) }
    room := by
      obtain ⟨room, _⟩ := State.alloc_ok r
      have total := Memory.total_insert ok.store.1 g.toNat (Arr.zeros n.toNat)
      obtain ⟨_, _, rfl⟩ := State.eq_bindZeros_of_alloc r
      exact State.fits_mono (s := s) rfl (Nat.le.intro total) room }

/-- Every way an instruction can end keeps the store's invariant. -/
theorem Ends.storeOk {i : Instr} {s t : State} (e : Ends i s t) (ok : s.StoreOk) : t.StoreOk := by
  cases e with
  | writesWord a b c arr _ bound lt =>
    have total := State.total_rebind ok.store bound (arr.write (s.reg b).toNat (s.reg c))
    have le := Nat.le_of_eq (Nat.add_right_cancel total)
    exact ok.rebind (State.active_some bound) rfl rfl rfl (Arr.wf_write _ (Memory.wf_find ok.store bound) lt)
      (State.fits_mono (s := s) rfl le ok.room)
  | allocates b c g u _ r => exact (ok.alloc r).of_sameStore ⟨rfl, rfl, rfl⟩ rfl
  | frees c _ nz act => exact ok.free nz act rfl rfl rfl rfl
  | loads b c arr _ _ bound room =>
    obtain ⟨old, slot0⟩ := State.active_iff.mp ok.slot0
    have total := State.total_rebind ok.store slot0 arr
    rw [State.len_some slot0] at room
    have le : Memory.total (Assoc.insert (0#32).toNat arr s.arrays) ≤ s.arrays.total - old.len + arr.len := by omega
    exact ok.rebind ok.slot0 rfl rfl rfl (Memory.wf_find ok.store bound) (State.fits_mono (s := s) rfl le room)
  | fails | writesReg | emits | answered | waits | halts | jumps => exact ok.of_sameStore ⟨rfl, rfl, rfl⟩ rfl

/-! The report and the wait -/

theorem State.reportOk_of_clear {s : State} (ok : s.status ≠ .failed) (kind : s.failKind = .noFailure)
    (pc : s.failPc = 0#32) : s.ReportOk where
  clear _ := ⟨kind, pc⟩
  filled failed := absurd failed ok

theorem State.reportOk_raise (s : State) {k : FailKind} (real : k ≠ .noFailure) : (s.raise k).ReportOk where
  clear ok := absurd rfl ok
  filled _ := ⟨real, rfl⟩

theorem Ends.reportOk {i : Instr} {s t : State} (e : Ends i s t) (run : s.status = .running) (ok : s.ReportOk) :
    t.ReportOk := by
  obtain ⟨kind, pc⟩ := ok.clear (by rw [run]; nofun)
  rcases e.report_cases with ⟨k, own, rfl⟩ | ⟨status, sameKind, samePc⟩
  · obtain ⟨real, _⟩ := instrKind_of_mem_ownFailures own
    exact s.reportOk_raise real
  · refine State.reportOk_of_clear ?_ (sameKind.trans kind) (samePc.trans pc)
    rcases status with same | halted
    · rw [same, run]
      nofun
    · rw [halted]
      nofun

theorem State.waitOk_of_not_waiting {s : State} (off : s.waitIn = false) : s.WaitOk := by
  intro on
  rw [off] at on
  cases on

/-- Only the wait of an INPUT leaves WAIT_IN at 1 where it was 0; an INPUT cannot fail, so it ends waiting or with
WAIT_IN at 0. -/
theorem Ends.waitIn_cases {i : Instr} {s t : State} (e : Ends i s t) :
    (∃ c, i = .input c ∧ t = s.awaitInput) ∨ t.waitIn = false ∨ ((∀ c, i ≠ .input c) ∧ t.waitIn = s.waitIn) := by
  cases e with
  | waits c i_eq => exact .inl ⟨c, i_eq, rfl⟩
  | answered => exact .inr (.inl rfl)
  | fails k own =>
    refine .inr (.inr ⟨?_, rfl⟩)
    rintro c rfl
    exact absurd own List.not_mem_nil
  | writesReg _ _ _ _ notInput => exact .inr (.inr ⟨notInput, rfl⟩)
  | allocates b c g u i_eq r =>
    obtain ⟨_, _, rfl⟩ := State.eq_bindZeros_of_alloc r
    subst i_eq
    exact .inr (.inr ⟨nofun, rfl⟩)
  | writesWord _ _ _ _ i_eq | frees _ i_eq | emits _ i_eq | halts i_eq | jumps _ _ i_eq | loads _ _ _ i_eq =>
    subst i_eq
    exact .inr (.inr ⟨nofun, rfl⟩)

theorem Ends.waitOk {s t : State} {w : Word} (e : Ends (decode w) s t) (run : s.status = .running)
    (fetched : s.fetch = .ok w) (ok : s.WaitOk) : t.WaitOk := by
  rcases e.waitIn_cases with ⟨c, decoded, rfl⟩ | off | ⟨notInput, same⟩
  · exact fun _ => ⟨run, w, c, fetched, decoded⟩
  · exact State.waitOk_of_not_waiting off
  · refine State.waitOk_of_not_waiting (Bool.eq_false_iff.mpr fun on => ?_)
    obtain ⟨_, v, c, fetched', decoded⟩ := ok (same ▸ on)
    cases fetched.symm.trans fetched'
    exact notInput c decoded

/-! Every step keeps the invariant -/

theorem State.inv_of_parts {s : State} (store : s.StoreOk) (report : s.ReportOk) (wait : s.WaitOk) : s.Inv :=
  { store with report, wait }

/-- Failure entry of a machine that is not waiting keeps the invariant. -/
theorem State.Inv.raise {s : State} (inv : s.Inv) (off : s.waitIn = false) {k : FailKind} (real : k ≠ .noFailure) :
    (s.raise k).Inv :=
  State.inv_of_parts (inv.storeOk.of_sameStore ⟨rfl, rfl, rfl⟩ rfl) (s.reportOk_raise real)
    (State.waitOk_of_not_waiting off)

/-- A machine that waits has fetched its INPUT. -/
theorem State.Inv.not_waiting_of_fetch_error {s : State} (inv : s.Inv) {k : FailKind} (failed : s.fetch = .error k) :
    s.waitIn = false := by
  refine Bool.eq_false_iff.mpr fun on => ?_
  obtain ⟨_, w, _, fetched, _⟩ := inv.wait on
  cases failed.symm.trans fetched

/-- Settles O49: a step stays in a terminal state, fails at its fetch, or runs one instruction, whose end keeps each
part of the invariant. -/
theorem stepKeepsTheInvariant : Obligations.StepKeepsTheInvariant := by
  intro s t inv stepped
  rcases step_cases stepped with ⟨_, rfl⟩ | ⟨_, failed, rfl⟩ | ⟨w, run, fetched, e⟩
  · exact inv
  · exact inv.raise (inv.not_waiting_of_fetch_error failed) nofun
  · exact State.inv_of_parts (e.storeOk inv.storeOk) (e.reportOk run inv.report) (e.waitOk run fetched inv.wait)

/-! The invariant after a reset -/

/-- A state whose one array is slot 0 has no other active handle. -/
theorem State.active_iff_zero_of_slot0 {s : State} {a : Arr} (arrays : s.arrays = [(0, a)]) (h : Word) :
    s.active h = true ↔ h = 0#32 := by
  constructor
  · intro act
    obtain ⟨b, bound⟩ := State.active_iff.mp act
    rw [State.array, arrays] at bound
    have mem := List.mem_singleton.mp (Assoc.mem_of_find bound)
    exact BitVec.eq_of_toNat_eq (congrArg Prod.fst mem)
  · rintro rfl
    have slot0 : s.array 0#32 = some a := by rw [State.array, arrays]; rfl
    exact State.active_some slot0

/-- A state whose one array is slot 0 meets the store's part, if FREE is empty and NEXT is 1. -/
theorem State.storeOk_of_slot0 {s : State} {a : Arr} (arrays : s.arrays = [(0, a)]) (wf : a.wf) (free : s.free = [])
    (next : s.nextHandle = 1) (room : s.fits a.len = true) : s.StoreOk := by
  have only := State.active_iff_zero_of_slot0 arrays
  exact {
    store := by
      rw [arrays]
      exact ⟨List.pairwise_singleton _ _, List.forall_mem_singleton.mpr ⟨Nat.two_pow_pos 32, wf⟩⟩
    slot0 := (only _).mpr rfl
    pool := by constructor <;> simp [free]
    mint := {
      low := next.ge
      high := by rw [next]; decide
      active := fun h act => .inl ((only h).mp act)
      noLeak := fun h nz lt => absurd (BitVec.eq_of_toNat_eq (Nat.lt_one_iff.mp (next ▸ lt))) nz }
    room := by rwa [arrays] }

theorem State.fits_zero (s : State) : s.fits 0 = true := by
  unfold State.fits
  split
  · exact decide_eq_true (Nat.zero_le _)
  · rfl

/-- A RUNNING state with a clear report and no wait needs the store's part only. -/
theorem State.StoreOk.inv_of_clean_report {s : State} (store : s.StoreOk) (run : s.status = .running)
    (kind : s.failKind = .noFailure) (pc : s.failPc = 0#32) (off : s.waitIn = false) : s.Inv :=
  State.inv_of_parts store (State.reportOk_of_clear (by rw [run]; nofun) kind pc) (State.waitOk_of_not_waiting off)

theorem State.inv_clean (s : State) : s.clean.Inv :=
  (State.storeOk_of_slot0 (State.clean_arrays s) (Arr.wf_zeros (by decide)) rfl rfl
    (State.fits_zero s.clean)).inv_of_clean_report rfl rfl rfl rfl

/-- Settles O47: `State.reset` is its own clean state. -/
theorem invariantHoldsAtReset : Obligations.InvariantHoldsAtReset :=
  State.inv_clean State.reset

/-- Settles O48: a reset leaves the clean state with the failure entered, or with an image that fits in slot 0. -/
theorem invariantHoldsAfterHostReset : Obligations.InvariantHoldsAfterHostReset := by
  intro s image
  rcases s.hostReset_cases image with ⟨k, kind, e⟩ | ⟨ws, lt, room, e⟩ <;> rw [e]
  · have real : k ≠ .noFailure := by rcases kind with rfl | rfl <;> nofun
    exact s.inv_clean.raise rfl real
  · have store : ({ s.clean with arrays := [(0, Arr.ofWords ws)] } : State).StoreOk :=
      State.storeOk_of_slot0 rfl (Arr.wf_ofWords lt) rfl rfl room
    exact store.inv_of_clean_report rfl rfl rfl rfl

/-- Settles O50: by induction on the run, from O48 and O49. -/
theorem reachableStatesMeetTheInvariant : Obligations.ReachableStatesMeetTheInvariant := by
  intro s reached
  induction reached with
  | reset s image => exact invariantHoldsAfterHostReset s image
  | step _ stepped inv => exact stepKeepsTheInvariant _ _ inv stepped

/-! What the invariant says of the handles and of pc -/

/-- Settles O51: the handle was free or not minted, and it leaves FREE when it is bound. -/
theorem allocatedHandleIsFresh : Obligations.AllocatedHandleIsFresh := by
  intro s t n g inv r
  obtain ⟨nz, inactive⟩ := inv.storeOk.fresh_of_alloc r
  have active := (State.active_insert (State.arrays_of_alloc r) g).mpr (.inl rfl)
  exact ⟨nz, inactive, active, (inv.storeOk.takes_of_alloc r).notFree⟩

/-- Settles O52: every handle is below NEXT, and a minted handle that is not free is active. -/
theorem noHandleLeftMeansAllActive : Obligations.NoHandleLeftMeansAllActive := by
  intro s inv free next h nz
  have minted : h.toNat < s.nextHandle := next ▸ h.isLt
  refine (inv.mint.noLeak h nz minted).resolve_right ?_
  rw [free]
  exact List.not_mem_nil

/-- Settles O53: a fetched pc is below the length of slot 0, which is at most 2^32 - 1. -/
theorem pcIncrementNeverWraps : Obligations.PcIncrementNeverWraps := by
  intro s w inv fetched
  obtain ⟨a, slot0, lt, _⟩ := State.storeRead_ok fetched
  obtain ⟨_, _, len⟩ := Memory.wf_find inv.store slot0
  rw [BitVec.toNat_add]
  exact Nat.mod_eq_of_lt (Nat.lt_of_le_of_lt lt len)

end Sys2Proof.Machine

/-! Proofs about single instructions (41_alu.md, 42_array.md, 43_control_io.md): MUL, ALLOCATE, INPUT and LOAD_PROGRAM
by the outcome of the one operation each of them turns on. -/

namespace Sys2Proof.Machine

open Sys2Proof

/-! MUL -/

/-- The low word of a product does not depend on the sign of its factors (41_alu.md R113). -/
theorem mul_eq_ofInt (v w : Word) : v * w = BitVec.ofInt 32 (v.toInt * w.toInt) := by
  rw [BitVec.ofInt_mul, BitVec.ofInt_toInt, BitVec.ofInt_toInt]

/-- Settles O19: one word is written, the product modulo 2^32, whichever way the factors are read. -/
theorem mulKeepsLowWordOfProduct : Obligations.MulKeepsLowWordOfProduct :=
  ⟨encodedAs_standard (by decide) fun _ => rfl, fun _ _ _ => rfl, fun a b c s =>
    ⟨_, _, exec_mul a b c s, s.writesOnlyReg_setReg_advance a _, BitVec.toNat_mul .., mul_eq_ofInt ..⟩⟩

/-! ALLOCATE -/

/-- With a free handle and room, Alloc pops FREE (20_memory.md R48). -/
theorem State.alloc_reuse {s : State} {g n : Word} {rest : List Word} (free : s.free = g :: rest)
    (room : s.fits (s.arrays.total + n.toNat) = true) :
    s.alloc n = .ok (g, ({ s with free := rest } : State).bindZeros g n) := by
  simp [State.alloc, free, room]

/-- With no free handle, a handle left to mint and room, Alloc mints NEXT (20_memory.md R48). -/
theorem State.alloc_mint {s : State} {n : Word} (free : s.free = []) (left : s.nextHandle < 2 ^ 32)
    (room : s.fits (s.arrays.total + n.toNat) = true) :
    s.alloc n = .ok (BitVec.ofNat 32 s.nextHandle,
      ({ s with nextHandle := s.nextHandle + 1 } : State).bindZeros (BitVec.ofNat 32 s.nextHandle) n) := by
  simpa [State.alloc, free, room] using left

/-- With no handle left or no room, Alloc fails (20_memory.md R49). -/
theorem State.alloc_exhausted {s : State} {n : Word}
    (out : s.free = [] ∧ 2 ^ 32 ≤ s.nextHandle ∨ s.fits (s.arrays.total + n.toNat) = false) :
    s.alloc n = .error .resourceExhausted := by
  rcases out with noHandle | noRoom
  · exact if_pos noHandle
  · simp [State.alloc, noRoom]

/-- The words of a new array are 0 (20_memory.md R48). -/
theorem State.storeRead_zeros {s : State} {g n off : Word} (bound : s.array g = some (Arr.zeros n.toNat))
    (lt : off.toNat < n.toNat) : s.storeRead g off = .ok 0#32 := by
  rw [State.storeRead_some bound, Arr.len_zeros, if_pos lt, Arr.read_zeros]

/-- What ALLOCATE does with the handle and the state a successful Alloc gives it (42_array.md R133). -/
theorem allocates_of_alloc {s u : State} {g n : Word} (r : s.alloc n = .ok (g, u)) (b : Reg) :
    Allocates s (u.setReg b g).advance b g n := by
  have bound := State.array_insert_same (State.arrays_of_alloc r)
  obtain ⟨free, next, rfl⟩ := State.eq_bindZeros_of_alloc r
  exact {
    dest := State.reg_setReg_same _ b g
    others := fun q ne => State.reg_setReg_ne _ g ne
    pc := rfl
    active := State.active_some bound
    len := State.len_some bound
    zeros := fun off lt => State.storeRead_zeros bound lt
    otherArrays := fun h ne => State.array_insert_ne (s := s) rfl ne
    out := rfl
    status := ⟨rfl, rfl, rfl, rfl⟩
    host := ⟨rfl, rfl, rfl⟩ }

/-- Settles O25: Alloc pops FREE. -/
theorem allocateReusesMostRecentlyFreed : Obligations.AllocateReusesMostRecentlyFreed := by
  intro b c s g rest free room
  have r := State.alloc_reuse free room
  exact ⟨_, exec_allocate_ok b c r, allocates_of_alloc r b, rfl, rfl⟩

/-- Settles O26: Alloc mints NEXT, which is a word since it is below 2^32. -/
theorem allocateMintsNextHandle : Obligations.AllocateMintsNextHandle := by
  intro b c s free left room
  have r := State.alloc_mint free left room
  exact ⟨_, BitVec.ofNat 32 s.nextHandle, exec_allocate_ok b c r, Nat.mod_eq_of_lt left, allocates_of_alloc r b, free,
    rfl⟩

/-- Settles O27: Alloc fails, and ALLOCATE enters the failure from the state before it. -/
theorem allocateFailsWhenExhausted : Obligations.AllocateFailsWhenExhausted := by
  intro b c s out
  have r := State.alloc_exhausted (out.imp_left fun ⟨free, next⟩ => ⟨free, next.ge⟩)
  exact ⟨_, exec_allocate_error b c r, s.failsWith_raise _⟩

/-- A successful Free drops the binding of its handle and pushes it (20_memory.md R50). -/
theorem State.dealloc_ok {s t : State} {h : Word} (freed : s.dealloc h = .ok t) :
    t.array h = none ∧ t.free = h :: s.free := by
  rcases s.dealloc_cases h with ⟨_, e⟩ | ⟨_, _, e⟩ <;> rw [e] at freed <;> cases freed
  exact ⟨State.array_erase_same (s := s) rfl, rfl⟩

/-- Settles O29: Free leaves its handle inactive and on top of FREE, where the next allocation finds it. -/
theorem freedHandleIsDeadUntilReused : Obligations.FreedHandleIsDeadUntilReused := by
  intro s t h freed
  obtain ⟨dead, free⟩ := State.dealloc_ok freed
  have inactive := State.active_none dead
  refine ⟨fun off v => ⟨State.storeRead_none dead off, State.storeWrite_invalid v (.inl inactive)⟩,
    State.dealloc_invalid (.inr inactive), fun n room => ?reused⟩
  case reused =>
    have r := State.alloc_reuse free room
    have bound := State.array_insert_same (State.arrays_of_alloc r)
    exact ⟨_, r, rfl, State.len_some bound, fun off lt => State.storeRead_zeros bound lt⟩

/-! INPUT -/

/-- A byte as a word is the byte as a number (43_control_io.md R153). -/
theorem inputWord_byte_toNat (o : Byte) : (inputWord (.byte o)).toNat = o.toNat :=
  BitVec.toNat_setWidth_of_le (by decide)

/-- Settles O33: the oldest answer is consumed, and its word is written. -/
theorem inputWritesByteOrAllOnes : Obligations.InputWritesByteOrAllOnes := by
  intro c s ans rest q
  refine ⟨_, inputWord ans, exec_input_answer c q, ?byte, ?eof, State.reg_setReg_same _ c _,
    fun r ne => State.reg_setReg_ne _ _ ne, rfl, rfl, rfl, rfl, rfl, rfl, rfl, rfl, ⟨rfl, rfl, rfl⟩, rfl⟩
  case byte =>
    rintro o rfl
    exact inputWord_byte_toNat o
  case eof =>
    rintro rfl
    rfl

/-- Settles O34: the wait sets WAIT_IN and draws the host's answers. -/
theorem inputWithoutAnswerWaits : Obligations.InputWithoutAnswerWaits :=
  fun c s q => ⟨_, exec_input_wait c q, s.awaitInput_waitIn, s.reg_awaitInput, rfl, rfl, rfl, rfl, rfl, ⟨rfl, rfl, rfl⟩,
    rfl, s.awaitInput_inAnswers, s.awaitInput_inDraws⟩

/-- Settles O35: the invariant says that a waiting machine is at an INPUT, and that INPUT waits again or takes an
answer. -/
theorem waitEndsOnlyWithAnAnswer : Obligations.WaitEndsOnlyWithAnAnswer := by
  intro s t inv on stepped
  obtain ⟨run, w, c, fetched, decoded⟩ := inv.wait on
  rw [step_of_storeRead_ok run fetched, decoded] at stepped
  cases q : s.inAnswers with
  | nil =>
    rw [exec_input_wait c q] at stepped
    cases stepped
    exact .inl ⟨rfl, rfl, rfl, run, rfl, ⟨rfl, rfl, rfl⟩, s.reg_awaitInput⟩
  | cons ans rest =>
    rw [exec_input_answer c q] at stepped
    cases stepped
    exact .inr ⟨ans, rest, rfl, rfl, rfl, rfl, run⟩

/-! LOAD_PROGRAM -/

/-- Dup0 of handle 0 changes nothing (20_memory.md R52). -/
theorem State.dup0_zero {s : State} {h : Word} (z : h = 0#32) : s.dup0 h = .ok s := if_pos z

/-- The handle check of Dup0 (20_memory.md R53). -/
theorem State.dup0_inactive {s : State} {h : Word} (nz : h ≠ 0#32) (inactive : s.active h = false) :
    s.dup0 h = .error .invalidArrayAccess := by
  simp [State.dup0, nz, State.inactive_iff.mp inactive]

/-- The capacity check of Dup0, for an active handle (20_memory.md R53). -/
theorem State.dup0_no_room {s : State} {h : Word} {a : Arr} (nz : h ≠ 0#32) (bound : s.array h = some a)
    (full : s.fits (s.arrays.total - s.len 0#32 + a.len) = false) : s.dup0 h = .error .resourceExhausted := by
  simp [State.dup0, nz, bound, full]

/-- The copy of Dup0, for an active handle with room (20_memory.md R52). -/
theorem State.dup0_copy {s : State} {h : Word} {a : Arr} (nz : h ≠ 0#32) (bound : s.array h = some a)
    (room : s.fits (s.arrays.total - s.len 0#32 + a.len) = true) :
    s.dup0 h = .ok { s with arrays := Assoc.insert 0 a s.arrays } := by
  simp [State.dup0, nz, bound, room]

/-- Settles O36: with handle 0 there is no copy, and the jump writes pc alone. -/
theorem loadProgramOfZeroHandleJumps : Obligations.LoadProgramOfZeroHandleJumps :=
  fun b c s z => ⟨_, exec_loadProgram_ok b c (State.dup0_zero z), s.jump_pc _, ⟨rfl, rfl, rfl⟩,
    s.reg_jump _, rfl, ⟨rfl, rfl, rfl, rfl⟩, ⟨rfl, rfl, rfl⟩⟩

/-- Settles O37: Dup0 binds handle 0 to the source array, and the jump writes pc alone. -/
theorem loadProgramCopiesIntoSlotZero : Obligations.LoadProgramCopiesIntoSlotZero := by
  intro b c s a nz bound room
  exact ⟨_, exec_loadProgram_ok b c (State.dup0_copy nz bound room), rfl,
    State.array_insert_same (s := s) (h := 0#32) rfl, fun h ne => State.array_insert_ne (s := s) (h := 0#32) rfl ne,
    rfl, rfl, fun _ => rfl, rfl, ⟨rfl, rfl, rfl, rfl⟩, ⟨rfl, rfl, rfl⟩⟩

/-- Settles O38: each check of Dup0 fails with its own kind, and LOAD_PROGRAM enters the failure from the state before
it. -/
theorem loadProgramFailsInOrder : Obligations.LoadProgramFailsInOrder := by
  intro b c s nz
  refine ⟨fun inactive => ?handle, fun a bound full => ?capacity⟩
  case handle => exact ⟨_, exec_loadProgram_error b c (State.dup0_inactive nz inactive), s.failsWith_raise _⟩
  case capacity => exact ⟨_, exec_loadProgram_error b c (State.dup0_no_room nz bound full), s.failsWith_raise _⟩

/-! Stores into the running program -/

/-- Settles O39: the store succeeds, pc moves on to the word it stored, and the machine is still RUNNING. -/
theorem storeIntoProgramIsSeenByNextFetch : Obligations.StoreIntoProgramIsSeenByNextFetch := by
  intro s w a b c run fetched decoded handle offset lt
  obtain ⟨program, slot0, _⟩ := State.storeRead_ok fetched
  have act := State.active_some slot0
  rw [← handle] at act lt
  have written := State.storeWrite_valid (s.reg c) act lt
  have next := State.storeRead_storeWrite_same written
  refine ⟨_, (step_of_storeRead_ok run fetched).trans (decoded ▸ exec_arrayUpdate_ok a b c written), ?_⟩
  refine step_of_storeRead_ok ((State.putWord_status ..).trans run) ?_
  rw [State.storeRead_advance, State.advance_pc, State.putWord_pc, ← offset, ← handle]
  exact next

end Sys2Proof.Machine

/-! Proofs of two facts about the model's form: input answers reach nothing but INPUT (10_state.md R30), and canonical
memories that read alike are equal (20_memory.md R55). -/

namespace Sys2Proof.Machine

open Sys2Proof

/-! The same state with another host -/

/-- The state with other input answers and another draw counter. -/
def State.withInput (q : List InputAnswer) (n : Nat) (s : State) : State := { s with inAnswers := q, inDraws := n }

section WithInput

variable (q : List InputAnswer) (n : Nat) (s : State)

theorem State.reg_withInput (r : Reg) : (s.withInput q n).reg r = s.reg r := rfl

theorem State.valid_withInput (h off : Word) : (s.withInput q n).valid h off = s.valid h off := rfl

theorem State.storeRead_withInput (h off : Word) :
    (s.withInput q n).storeRead h off = (s.storeRead h off).map id := by
  rw [Except.map_id]
  rfl

theorem State.putWord_withInput (h off v : Word) :
    (s.withInput q n).putWord h off v = (s.putWord h off v).withInput q n := by
  cases bound : s.array h with
  | none => simp only [State.putWord, bound, show (s.withInput q n).array h = none from bound]
  | some a =>
    simp only [State.putWord, bound, show (s.withInput q n).array h = some a from bound]
    rfl

theorem State.storeWrite_withInput (h off v : Word) :
    (s.withInput q n).storeWrite h off v = (s.storeWrite h off v).map (State.withInput q n) := by
  rw [State.storeWrite, State.storeWrite, State.valid_withInput, State.putWord_withInput]
  split <;> rfl

theorem State.alloc_withInput (m : Word) :
    (s.withInput q n).alloc m = (s.alloc m).map fun r => (r.1, r.2.withInput q n) := by
  rcases s.alloc_cases m with ⟨out, e⟩ | ⟨g, rest, free, room, e⟩ | ⟨free, left, room, e⟩ <;> rw [e]
  · exact State.alloc_exhausted out
  · exact State.alloc_reuse free room
  · exact State.alloc_mint free left room

theorem State.dealloc_withInput (h : Word) :
    (s.withInput q n).dealloc h = (s.dealloc h).map (State.withInput q n) := by
  rcases s.dealloc_cases h with ⟨bad, e⟩ | ⟨nz, act, e⟩ <;> rw [e]
  · exact State.dealloc_invalid bad
  · exact State.dealloc_active nz act

theorem State.dup0_withInput (h : Word) : (s.withInput q n).dup0 h = (s.dup0 h).map (State.withInput q n) := by
  rcases s.dup0_cases h with ⟨z, e⟩ | ⟨nz, unbound, e⟩ | ⟨a, nz, bound, full, e⟩ | ⟨a, nz, bound, room, e⟩ <;> rw [e]
  · exact State.dup0_zero z
  · exact State.dup0_inactive nz (State.active_none unbound)
  · exact State.dup0_no_room nz bound full
  · exact State.dup0_copy nz bound room

/-- An instruction that ends by its operation's outcome takes no notice of the host, if neither the operation nor what
follows it does. -/
theorem State.next_conclude_withInput {α : Type} {r r' : Except FailKind α} {f f' : α → State} {g : α → α}
    (outcome : r' = r.map g) (follow : ∀ a, f' (g a) = (f a).withInput q n) :
    (.next ((s.withInput q n).conclude (r'.map f')) : Host.Outcome State Fault Refusal)
      = .next ((s.conclude (r.map f)).withInput q n) := by
  subst outcome
  cases r with
  | ok a => exact congrArg _ (follow a)
  | error k => rfl

end WithInput

/-- Settles O46: every operation an instruction other than INPUT uses leaves the answers and the draw counter alone and
does not look at them. -/
theorem inputAnswersReachOnlyInput : Obligations.InputAnswersReachOnlyInput := by
  intro i s q n notInput
  cases i with
  | condMove a b c =>
    refine ⟨_, exec_condMove a b c s, (exec_condMove a b c (s.withInput q n)).trans (congrArg _ ?_)⟩
    rw [State.reg_withInput]
    split <;> rfl
  | div a b c =>
    refine ⟨_, exec_div a b c s, (exec_div a b c (s.withInput q n)).trans (congrArg _ ?_)⟩
    rw [State.reg_withInput]
    split <;> rfl
  | output c =>
    refine ⟨_, exec_output c s, (exec_output c (s.withInput q n)).trans (congrArg _ ?_)⟩
    rw [State.reg_withInput]
    split <;> rfl
  | arrayIndex => exact ⟨_, rfl, s.next_conclude_withInput q n (s.storeRead_withInput ..) fun _ => rfl⟩
  | arrayUpdate => exact ⟨_, rfl, s.next_conclude_withInput q n (s.storeWrite_withInput ..) fun _ => rfl⟩
  | allocate => exact ⟨_, rfl, s.next_conclude_withInput q n (s.alloc_withInput ..) fun _ => rfl⟩
  | deallocate => exact ⟨_, rfl, s.next_conclude_withInput q n (s.dealloc_withInput ..) fun _ => rfl⟩
  | loadProgram => exact ⟨_, rfl, s.next_conclude_withInput q n (s.dup0_withInput ..) fun _ => rfl⟩
  | input c => exact absurd rfl (notInput c)
  | add | mul | nand | halt | loadImmediate | illegal14 | illegal15 => exact ⟨_, rfl, rfl⟩

/-! Equal reads, equal data -/

/-- A map in canonical form is its bindings. -/
theorem Assoc.mem_iff_find {α : Type} {m : List (Nat × α)} (sorted : Assoc.Sorted m) (k : Nat) (v : α) :
    (k, v) ∈ m ↔ Assoc.find k m = some v :=
  ⟨Assoc.find_of_mem sorted, Assoc.mem_of_find⟩

theorem Assoc.nodup_of_sorted {α : Type} {m : List (Nat × α)} (sorted : Assoc.Sorted m) : m.Nodup :=
  sorted.imp fun lt e => Nat.ne_of_lt lt (congrArg Prod.fst e)

/-- Two maps in canonical form with the same bindings are equal. -/
theorem Assoc.ext_of_find {α : Type} {m n : List (Nat × α)} (sm : Assoc.Sorted m) (sn : Assoc.Sorted n)
    (same : ∀ k, Assoc.find k m = Assoc.find k n) : m = n := by
  have perm : m.Perm n := (List.perm_ext_iff_of_nodup (Assoc.nodup_of_sorted sm) (Assoc.nodup_of_sorted sn)).mpr
    fun ⟨k, v⟩ => by rw [Assoc.mem_iff_find sm, Assoc.mem_iff_find sn, same]
  exact perm.eq_of_pairwise (fun _ _ _ _ lt gt => absurd gt (Nat.lt_asymm lt)) sm sn

/-- In canonical form, the words that read nonzero are the ones listed. -/
theorem Arr.find_cells {a : Arr} (wf : a.wf) (off : Nat) :
    Assoc.find off a.cells = if a.read off = 0#32 then none else some (a.read off) := by
  obtain ⟨_, cells, _⟩ := wf
  cases listed : Assoc.find off a.cells with
  | none => simp [Arr.read, listed]
  | some v =>
    obtain ⟨_, nz⟩ := cells _ (Assoc.mem_of_find listed)
    simp [Arr.read, listed, nz]

/-- Two canonical arrays of one length that read alike are equal. -/
theorem Arr.ext_of_read {a b : Arr} (wa : a.wf) (wb : b.wf) (len : a.len = b.len)
    (same : ∀ off, a.read off = b.read off) : a = b := by
  have cells : a.cells = b.cells := by
    refine Assoc.ext_of_find wa.1 wb.1 fun off => ?_
    rw [Arr.find_cells wa, Arr.find_cells wb, same]
  cases a
  cases b
  exact congrArg₂ Arr.mk len cells

/-- Settles O54: the canonical form is unique for the words of an array, and then for the arrays of a memory. -/
theorem equalMemoriesAreEqualData : Obligations.EqualMemoriesAreEqualData := by
  intro m n wm wn lens words
  refine Assoc.ext_of_find wm.1 wn.1 fun k => ?_
  have len := lens k
  cases fm : Assoc.find k m with
  | none =>
    rw [fm] at len
    exact (Option.map_eq_none_iff.mp len.symm).symm
  | some a =>
    rw [fm] at len
    obtain ⟨b, fn, lenEq⟩ := Option.map_eq_some_iff.mp len.symm
    rw [fn, Arr.ext_of_read (Memory.wf_find wm fm) (Memory.wf_find wn fn) lenEq.symm (words k a b fm fn)]

end Sys2Proof.Machine

/-! Proofs of the outcomes of a reset (70_reset_and_hazards.md R197 to R201): the state an accepted image leaves, and
the rejected state with the kind of its rejection. -/

namespace Sys2Proof.Machine

open Sys2Proof

/-! An accepted image -/

/-- Settles O56: slot 0 is O57's, and everything else is the clean state's. -/
theorem stateAfterAcceptedReset : Obligations.StateAfterAcceptedReset := by
  intro s image n len lt room
  obtain ⟨length, wordsRead⟩ := imageBecomesSlotZeroBigEndian s image n len lt room
  obtain ⟨ws, words, rfl⟩ := imageWords_of_length len
  have accepted := State.hostReset_accepted words lt room
  have only := State.active_iff_zero_of_slot0 (congrArg State.arrays accepted)
  rw [accepted] at length wordsRead only ⊢
  exact ⟨_, rfl, rfl, rfl, rfl, rfl, rfl, rfl, rfl, rfl, only, length, wordsRead, s.reg_clean, rfl⟩

/-! A rejected image -/

/-- The rejected state is the clean state after failure entry (70_reset_and_hazards.md R199). -/
theorem State.rejectedWith_rejectImage (s : State) (k : FailKind) : RejectedWith (s.rejectImage k) k where
  status := rfl
  kind := rfl
  failPc := rfl
  waitIn := rfl
  active := State.active_iff_zero_of_slot0 s.clean_arrays
  empty := rfl
  regs := s.reg_clean
  pc := rfl
  free := rfl
  nextHandle := rfl
  out := rfl

/-- The loader's rejection is the rejected state, where the machine stays. -/
theorem State.hostReset_rejected {s : State} {image : Option (List Byte)} {k : FailKind}
    (rejected : s.acceptImage image = .error k) :
    RejectedWith (s.hostReset image) k ∧ step (s.hostReset image) = .next (s.hostReset image) := by
  have reset : s.hostReset image = s.rejectImage k := by rw [State.hostReset, rejected]
  rw [reset]
  exact ⟨s.rejectedWith_rejectImage k, step_of_failed rfl⟩

/-- An image that has words has four bytes for each (70_reset_and_hazards.md R198). -/
theorem length_of_imageWords {image : List Byte} {ws : List Word} (words : imageWords image = some ws) :
    image.length = 4 * ws.length := by
  induction image using imageWords.induct generalizing ws with
  | case1 => cases words; rfl
  | case2 b0 b1 b2 b3 rest ih =>
    rw [imageWords, Option.map_eq_some_iff] at words
    obtain ⟨tail, words, rfl⟩ := words
    have := ih words
    simp only [List.length_cons]
    omega
  | case3 => simp [imageWords] at words

/-- Settles O58: an image the loader accepts, or rejects by its capacity, has a length of 4 bytes a word and less than
2^32 words. -/
theorem rejectedImageLeavesLoadError : Obligations.RejectedImageLeavesLoadError := by
  intro s image bad
  refine State.hostReset_rejected ?_
  rcases s.acceptImage_cases image with ⟨_, e⟩ | ⟨ws, words, ⟨_, e⟩ | small⟩
  · exact e
  · exact e
  · obtain ⟨bytes, rfl, words⟩ := Option.bind_eq_some_iff.mp words
    have lt : ws.length < 2 ^ 32 := small.elim And.left And.left
    have len := length_of_imageWords words
    rcases bad bytes rfl with odd | big <;> omega

/-- Settles O59: the image has words, fewer than 2^32, and they do not fit. -/
theorem overfullImageLeavesResourceExhausted : Obligations.OverfullImageLeavesResourceExhausted := by
  intro s image n len lt full
  refine State.hostReset_rejected ?_
  obtain ⟨ws, words, rfl⟩ := imageWords_of_length len
  simpa [State.acceptImage, words, full] using lt

end Sys2Proof.Machine
